-- ==== Sys2Proof/Word.lean ====
section
/-! DEFINITION. The one word of this hardware: an unsigned byte (00_scope.md rules R7, R10). -/

namespace Sys2Proof

/-- A byte: 8 bits, bit 0 least significant, bit 7 most significant (R7). -/
abbrev Byte := BitVec 8

/-- Three bytes, index 0 first (the flags AD structure, R5). -/
structure Byte3 where
  b0 : Byte
  b1 : Byte
  b2 : Byte
  deriving DecidableEq, Repr

/-- The six bytes of a device address, `a0` the most significant (R23, R53). -/
structure DevAddr where
  a0 : Byte
  a1 : Byte
  a2 : Byte
  a3 : Byte
  a4 : Byte
  a5 : Byte
  deriving DecidableEq, Repr

/-- The bytes of an address in the order the host gives them, most significant first (R53). -/
def DevAddr.bytes (a : DevAddr) : List Byte := [a.a0, a.a1, a.a2, a.a3, a.a4, a.a5]

end Sys2Proof
end

