-- ==== Sys2Proof/Syntax.lean ====
section
/-! DEFINITION. The operations of the block, one constructor per row of spec/opcode_table.json (30_encoding.md
rule R75), with their operands as decoded (rule R72). A `len` byte is no field: it is the length of the byte string. -/

namespace Sys2Proof

/-- The twelve operations of table O (R75). -/
inductive Instr where
  /-- REVB: reverse the bits of `b` (R100). -/
  | revb (b : Byte)
  /-- WSEED: the whitening seed of channel index `ch` (R135). -/
  | wseed (ch : Byte)
  /-- CRC24: run the CRC from the accumulator `c0 c1 c2` over `data` (R110). -/
  | crc24 (c0 c1 c2 : Byte) (data : List Byte)
  /-- WHITEN: whiten `data` from the register value `seed` (R130). -/
  | whiten (seed : Byte) (data : List Byte)
  /-- ENCODE: the encoder pipeline for channel `ch` on the whole `packet` (R150). -/
  | encode (ch : Byte) (packet : List Byte)
  /-- ADVANCE: hand out the current channel pair and move the hopper (R171). -/
  | advance
  /-- SETADDR: set the device address, `a0` most significant (R180). -/
  | setaddr (a0 a1 a2 a3 a4 a5 : Byte)
  /-- SETNAME: establish the name field (R181). -/
  | setname (name : List Byte)
  /-- SETDATA: write the data field (R182). -/
  | setdata (data : List Byte)
  /-- CURLEN: the PDU length (R183). -/
  | curlen
  /-- TXONCE: one transmission (R210). -/
  | txonce
  /-- SENDDATA: SETDATA, then TXONCE if accepted (R211). -/
  | senddata (data : List Byte)
  deriving DecidableEq, Repr

end Sys2Proof
end

