-- ==== Sys2Proof/WellFormed.lean ====
section
/-! DEFINITION. Which operation terms a command frame can carry: a byte string is counted by one `len` byte
(30_encoding.md rule R72), so it has at most 255 bytes. -/

namespace Sys2Proof

/-- A byte string fits its `len` byte (R72). -/
def fitsLen (d : List Byte) : Bool := decide (d.length ≤ 255)

/-- The operands fit their format (R71, R72). An ENCODE packet shorter than three bytes IS a whole frame (R154, log 13). -/
def Instr.wf : Instr → Bool
  | .revb _ => true
  | .wseed _ => true
  | .crc24 _ _ _ data => fitsLen data
  | .whiten _ data => fitsLen data
  | .encode _ packet => fitsLen packet
  | .advance => true
  | .setaddr _ _ _ _ _ _ => true
  | .setname name => fitsLen name
  | .setdata data => fitsLen data
  | .curlen => true
  | .txonce => true
  | .senddata data => fitsLen data

end Sys2Proof
end

