-- ==== Sys2Proof/Decode.lean ====
section
/-! DEFINITION. Command frames (30_encoding.md rules R70 to R77): the decoder, total on every byte string and
rejecting by name, and after it the encoder, both written from tables R71 and R75. -/

namespace Sys2Proof

/-- Why a byte string does not begin with a whole command frame. -/
inductive DecodeError where
  /-- There is no byte at all. -/
  | empty
  /-- Byte 0 is an opcode that table O does not have (R76). -/
  | reservedOpcode (op : Byte)
  /-- The bytes end before the count that the format and `len` demand (R77). -/
  | cutShort (op : Byte)
  deriving DecidableEq, Repr

/-- What the decoder answers. -/
inductive Decoded where
  /-- A whole frame of the operation `i`, then the bytes that belong to the next frame. -/
  | frame (i : Instr) (rest : List Byte)
  /-- No whole frame. -/
  | rejected (e : DecodeError)
  deriving DecidableEq, Repr

/-! ### The six operand formats (R71): each takes its operands off the front and leaves the rest -/

/-- The first `n` bytes and what is left, `none` when there are fewer. -/
def takeExact : Nat → List Byte → Option (List Byte × List Byte)
  | 0, r => some ([], r)
  | _ + 1, [] => none
  | n + 1, b :: r =>
    match takeExact n r with
    | some (d, rest) => some (b :: d, rest)
    | none => none

/-- Format `N`: no operand bytes. -/
def operandsN (i : Instr) (r : List Byte) : Option (Instr × List Byte) := some (i, r)

/-- Format `B`: one byte. -/
def operandsB (k : Byte → Instr) : List Byte → Option (Instr × List Byte)
  | b :: r => some (k b, r)
  | [] => none

/-- Format `A6`: six bytes, the most significant first. -/
def operandsA6 (k : Byte → Byte → Byte → Byte → Byte → Byte → Instr) : List Byte → Option (Instr × List Byte)
  | a0 :: a1 :: a2 :: a3 :: a4 :: a5 :: r => some (k a0 a1 a2 a3 a4 a5, r)
  | _ => none

/-- Format `V`: a `len` byte, then that many bytes. -/
def operandsV (k : List Byte → Instr) : List Byte → Option (Instr × List Byte)
  | [] => none
  | len :: r =>
    match takeExact len.toNat r with
    | some (d, rest) => some (k d, rest)
    | none => none

/-- Format `KV`: a byte `k`, then as format `V`. -/
def operandsKV (k : Byte → List Byte → Instr) : List Byte → Option (Instr × List Byte)
  | b :: r => operandsV (k b) r
  | [] => none

/-- Format `CV`: three accumulator bytes, then as format `V`. -/
def operandsCV (k : Byte → Byte → Byte → List Byte → Instr) : List Byte → Option (Instr × List Byte)
  | c0 :: c1 :: c2 :: r => operandsV (k c0 c1 c2) r
  | _ => none

/-- Table O (R75): the opcode names the operation and its format. `none` for a reserved opcode (R76). -/
def operandsOf (op : Byte) : Option (List Byte → Option (Instr × List Byte)) :=
  match op with
  | 0x01#8 => some (operandsB .revb)
  | 0x02#8 => some (operandsB .wseed)
  | 0x03#8 => some (operandsCV .crc24)
  | 0x04#8 => some (operandsKV .whiten)
  | 0x05#8 => some (operandsKV .encode)
  | 0x06#8 => some (operandsN .advance)
  | 0x10#8 => some (operandsA6 .setaddr)
  | 0x11#8 => some (operandsV .setname)
  | 0x12#8 => some (operandsV .setdata)
  | 0x13#8 => some (operandsN .curlen)
  | 0x14#8 => some (operandsN .txonce)
  | 0x15#8 => some (operandsV .senddata)
  | _ => none

/-- Read one command frame off the front of the bytes the host sends: the operation and the bytes that belong to the
next frame (R70, R71, R77). -/
def decode : List Byte → Decoded
  | [] => .rejected .empty
  | op :: r =>
    match operandsOf op with
    | none => .rejected (.reservedOpcode op)
    | some f =>
      match f r with
      | none => .rejected (.cutShort op)
      | some (i, rest) => .frame i rest

/-! ### The encoder -/

/-- The opcode of each operation (R75). -/
def opcode : Instr → Byte
  | .revb _ => 0x01
  | .wseed _ => 0x02
  | .crc24 _ _ _ _ => 0x03
  | .whiten _ _ => 0x04
  | .encode _ _ => 0x05
  | .advance => 0x06
  | .setaddr _ _ _ _ _ _ => 0x10
  | .setname _ => 0x11
  | .setdata _ => 0x12
  | .curlen => 0x13
  | .txonce => 0x14
  | .senddata _ => 0x15

/-- A byte string behind its `len` byte (R72). -/
def counted (d : List Byte) : List Byte := BitVec.ofNat 8 d.length :: d

/-- The operand bytes of an operation, in the order of its format (R71). -/
def operandBytes : Instr → List Byte
  | .revb b => [b]
  | .wseed ch => [ch]
  | .crc24 c0 c1 c2 data => c0 :: c1 :: c2 :: counted data
  | .whiten seed data => seed :: counted data
  | .encode ch packet => ch :: counted packet
  | .advance => []
  | .setaddr a0 a1 a2 a3 a4 a5 => [a0, a1, a2, a3, a4, a5]
  | .setname name => counted name
  | .setdata data => counted data
  | .curlen => []
  | .txonce => []
  | .senddata data => counted data

/-- The command frame of an operation (R70, R71). -/
def encode (i : Instr) : List Byte := opcode i :: operandBytes i

/-! ### A word of spec/opcode_table.json -/

/-- The longest command frame: format `CV` with 255 data bytes (R71). -/
def maxFrame : Nat := 260

/-- The bytes of a table word, byte 0 from its least significant bits, then zeros up to the longest frame. -/
def tableBytes (nbits w : Nat) : List Byte :=
  (List.range (nbits / 8)).map (fun k => BitVec.ofNat 8 (w >>> (8 * k))) ++ List.replicate maxFrame 0

/-- The operation the decoder reads from a table word. -/
def decodeTableWord (nbits w : Nat) : Option Instr :=
  match decode (tableBytes nbits w) with
  | .frame i _ => some i
  | .rejected _ => none

/-- Exactly the frame of a table word, no zero beyond it; a word that is no frame is its own bytes. -/
def tableFrame (nbits w : Nat) : List Byte :=
  match decodeTableWord nbits w with
  | some i => encode i
  | none => (tableBytes nbits w).take (nbits / 8)

end Sys2Proof
end

