-- ==== Sys2Proof/Config.lean ====
section
/-! DEFINITION. The parameters of table P (00_scope.md rule R5). A machine carries them in its state as the
constant field `cfg`, so that every statement over states holds for every parameter value. -/

namespace Sys2Proof

/-- Table P (R5): what is fixed for one machine. -/
structure Config where
  /-- `CAP`: capacity in bytes of FB and of TX; legal 16 to 255. -/
  cap : Nat
  /-- `HDR`: the PDU header byte FB[0]. -/
  hdr : Byte
  /-- `FLAGS_AD`: the three bytes of the flags AD structure. -/
  flagsAd : Byte3
  /-- `ADDR_RESET`: the device address after reset, most significant byte first. -/
  addrReset : DevAddr
  /-- `TX_HOLD_MS`: the hold duration handed to `pulseSignal`. -/
  txHoldMs : Nat
  /-- `TX_LEVEL`: the level handed to `pulseSignal`. -/
  txLevel : Bool
  deriving DecidableEq, Repr

/-- The legal values of table P: `CAP` from 16 to 255, every other parameter any value (R5). -/
abbrev Config.legal (c : Config) : Prop := 16 ≤ c.cap ∧ c.cap ≤ 255


/-- The bytes of `ADDR_RESET`, by index: OPEN in the spec (R5, R262), so opaque here (log 4). -/
opaque Config.openAddrByte : Nat → Byte

/-- `TX_HOLD_MS`: OPEN in the spec (R5, R242), so opaque here (log 4). -/
opaque Config.openHoldMs : Nat

/-- The parameters of the machine `State.reset` stands for: `CAP` the source's 32, `HDR`, `FLAGS_AD` and `TX_LEVEL`
the spec's defaults (R5; DESIGN CHOICE, log 3), `ADDR_RESET` and `TX_HOLD_MS` open (log 4). -/
def Config.default : Config where
  cap := 32
  hdr := 0x42
  flagsAd := ⟨0x02, 0x01, 0x05⟩
  addrReset := ⟨openAddrByte 0, openAddrByte 1, openAddrByte 2, openAddrByte 3, openAddrByte 4, openAddrByte 5⟩
  txHoldMs := openHoldMs
  txLevel := true

end Sys2Proof
end

