-- ==== Sys2Proof/Machine/Memory.lean ====
section
/-! DEFINITION. The two buffers as plain data (20_memory.md rules R50, R57, R58): a buffer is the list of its
(index, byte) cells in one canonical form, and the frame a reset puts into FB (10_state.md rule R36). -/

namespace Sys2Proof.Machine

/-- A buffer: its listed bytes, by rising index. -/
abbrev Memory := List Host.Cell

/-- The two buffers of the block (R50 spaces 1 and 2). -/
inductive Buf where
  /-- The frame buffer FB (R21). -/
  | fb
  /-- The transmit buffer TX (R22). -/
  | tx
  deriving DecidableEq, Repr

/-- What an unlisted index reads as: FB's reset content 00 (R36); nothing for TX, whose content before its first write
is unspecified (R37, log 5). -/
def Buf.blank : Buf → Option Byte
  | .fb => some 0
  | .tx => none

/-- The listed byte at an index. -/
def Memory.cellAt : Memory → Nat → Option Byte
  | [], _ => none
  | (k, v) :: rest, i => if k = i then some v else Memory.cellAt rest i

/-- List a byte at an index, keeping the indices rising. -/
def Memory.put : Memory → Nat → Byte → Memory
  | [], i, b => [(i, b)]
  | (k, v) :: rest, i, b =>
    if i < k then (i, b) :: (k, v) :: rest
    else if i = k then (i, b) :: rest
    else (k, v) :: Memory.put rest i b

/-- Take an index off the list. -/
def Memory.erase (m : Memory) (i : Nat) : Memory := m.filter (fun c => c.1 != i)

/-- Read one byte: the listed one, or what an unlisted index reads as. -/
def Memory.read (blank : Option Byte) (m : Memory) (i : Nat) : Option Byte :=
  match blank with
  | some b => some ((Memory.cellAt m i).getD b)
  | none => Memory.cellAt m i

/-- Write one byte and no other (R58). A byte equal to what an unlisted index reads as is taken off the list. -/
def Memory.write (blank : Option Byte) (m : Memory) (i : Nat) (b : Byte) : Memory :=
  if blank = some b then Memory.erase m i else Memory.put m i b

/-- Write bytes at rising indices, lowest first (R57). -/
def Memory.writeAll (blank : Option Byte) : Memory → Nat → List Byte → Memory
  | m, _, [] => m
  | m, i, b :: bs => Memory.writeAll blank (Memory.write blank m i b) (i + 1) bs

/-- The canonical form: indices strictly rising, no cell equal to what its index reads as when unlisted, every index
below the capacity. -/
abbrev Memory.wf (blank : Option Byte) (cap : Nat) (m : Memory) : Prop :=
  m.Pairwise (fun c d => c.1 < d.1) ∧ ∀ c ∈ m, blank ≠ some c.2 ∧ c.1 < cap

/-- The address bytes as the frame holds them, least significant first (R23, R53). -/
def addrField (a : DevAddr) : List Byte := [a.a5, a.a4, a.a3, a.a2, a.a1, a.a0]

/-- The frame FB holds after reset (R36): header, length 00, address, flags; the rest 00. -/
def resetFrame (c : Config) : Memory :=
  Memory.writeAll Buf.fb.blank [] 0
    (c.hdr :: 0x00 :: addrField c.addrReset ++ [c.flagsAd.b0, c.flagsAd.b1, c.flagsAd.b2])

end Sys2Proof.Machine
end

