-- ==== Sys2Proof/Machine/State.lean ====
section
/-! DEFINITION. The state of the block (10_state.md rules R20 to R37), why a step can stop, and the state after reset. -/

namespace Sys2Proof.Machine

/-- Why the model stops with a fault. The block itself has no fault (60_exceptions.md rule R233); both reasons are asked
for by the spec so that an error of the model shows, and neither is reached from a state that keeps R35. -/
inductive Fault where
  /-- An index at or above `CAP`. Raised by `readByte` and `writeByte` (Machine/Ops.lean). Safe: the spec says no rule
  computes such an index and a model should fault (R57; log 6). -/
  | bufferIndex (buf : Buf) (i : Nat)
  /-- A read of a byte of TX that nothing has written. Raised by `readByte` (Machine/Ops.lean). Safe: the spec says a
  model must treat that read as a fault (R37; log 5). -/
  | unwritten (buf : Buf) (i : Nat)
  deriving DecidableEq, Repr

/-- Why the model refuses an operation. -/
inductive Refusal where
  /-- The operation has no meaning in the model yet. Raised by no arm of `exec` now. Safe. -/
  | notModelled (mnemonic : String)
  deriving DecidableEq, Repr

/-- One call on the radio collaborator (60_exceptions.md rule R245). -/
inductive RadioCall where
  /-- `writeRegister(address, value)`: in the collaborator's contract, never made by the block (R212, R245; log 18). -/
  | writeRegister (address value : Nat)
  /-- `writeBytes(bytes, len)`. -/
  | writeBytes (bytes : List Byte) (len : Nat)
  /-- `pulseSignal(level, durationMs)`. -/
  | pulseSignal (level : Bool) (durationMs : Nat)
  /-- `setChannelFrequency(offset)`. -/
  | setChannelFrequency (offset : Byte)
  deriving DecidableEq, Repr

/-- What the host does to the block (00_scope.md rule R14). -/
inductive HostInput where
  /-- The host sends these command bytes and then stops sending (30_encoding.md rules R70, R77; log 1). -/
  | send (bytes : List Byte)
  /-- The host asserts `rst` between two operations (70_reset_and_hazards.md rule R260; log 9). -/
  | rst
  deriving DecidableEq, Repr

/-- The state of one instance of the block: the nine items of table S (R20), the parameters, and the model's own
record of what the host still sends and of what the block has put out. -/
structure State where
  /-- The parameters of table P (R5); no step changes them. -/
  cfg : Config
  /-- `FB`, the frame buffer (R21). -/
  fb : Memory
  /-- `TX`, the transmit buffer (R22). -/
  tx : Memory
  /-- `ADDR`, the device address (R23). -/
  addr : DevAddr
  /-- `CHIDX`, the channel index: 0, 1 or 2 (R24; log 17). -/
  chidx : Fin 3
  /-- `NAME_SET` (R25). -/
  nameSet : Bool
  /-- `NAMELEN` (R26). -/
  nameLen : Nat
  /-- `DATA_SET` (R27). -/
  dataSet : Bool
  /-- `DATALEN` (R27). -/
  dataLen : Nat
  /-- `REMAIN` (R28). -/
  remain : Nat
  /-- What the host still does, first thing first (log 1). -/
  inputs : List HostInput
  /-- The response frames given, oldest first; an observation only (R34; log 2). -/
  responses : List (List Byte)
  /-- The radio calls made, oldest first; an observation only (R34; log 2). -/
  radio : List RadioCall
  deriving DecidableEq, Repr

/-- The state of a machine with parameters `c` right after reset (R36, R37), the host having sent nothing (R13). -/
def State.initial (c : Config) : State where
  cfg := c
  fb := resetFrame c
  tx := []
  addr := c.addrReset
  chidx := 0
  nameSet := false
  nameLen := 0
  dataSet := false
  dataLen := 0
  remain := 0
  inputs := []
  responses := []
  radio := []

/-- The machine right after reset, with the parameters of `Config.default` (log 3, log 4). -/
def State.reset : State := State.initial Config.default

end Sys2Proof.Machine
end

