-- ==== Sys2Proof/Machine/Flags.lean ====
section
/-! DEFINITION. Status codes and the conditions that raise them (30_encoding.md rule R74, 60_exceptions.md rules R230 to
R236). The block has no condition codes (10_state.md rule R32): a status is reported once and not stored. -/

namespace Sys2Proof.Machine

/-- The status of a response (R74). -/
inductive Status where
  | ok
  | capacityExceeded
  | preconditionViolated
  | frameOverrun
  | badOperand
  | badOpcode
  deriving DecidableEq, Repr

/-- The status byte (R74). -/
def Status.code : Status → Byte
  | .ok => 0x00
  | .capacityExceeded => 0x01
  | .preconditionViolated => 0x02
  | .frameOverrun => 0x03
  | .badOperand => 0x04
  | .badOpcode => 0x05

/-- The PDU length field value (45_frame_builder.md rule R183): address and flags, then each structure that is
present with its two leading bytes. -/
def currentLength (s : State) : Nat :=
  9 + (if s.nameSet then 2 + s.nameLen else 0) + (if s.dataSet then 2 + s.dataLen else 0)

/-- The bytes of the whole packet (20_memory.md rule R52): header, length, payload, CRC. -/
def totalLen (s : State) : Nat := 2 + currentLength s + 3

/-- SETNAME raises CAPACITY_EXCEEDED: `n > CAP - 16` over the integers (R181, R11; log 16). -/
def nameTooLong (s : State) (n : Nat) : Bool := decide (s.cfg.cap < n + 16)

/-- SETDATA raises CAPACITY_EXCEEDED: `d > REMAIN` (R182). -/
def dataTooLong (s : State) (d : Nat) : Bool := decide (s.remain < d)

/-- TXONCE raises FRAME_OVERRUN: `2 + currentLength() + 3 > CAP` (46_transmit_controller.md rule R213). -/
def frameTooLong (s : State) : Bool := decide (s.cfg.cap < totalLen s)

end Sys2Proof.Machine
end

