-- ==== Sys2Proof/Machine/Ops.lean ====
section
/-! DEFINITION. The shared operations: byte accesses to FB and TX, the response, the raise (the analogue of taking an
exception), the radio calls, reset, and taking the next thing the host does. -/

namespace Sys2Proof.Machine

/-- How an operation answers. -/
abbrev Outcome := Host.Outcome State Fault Refusal

/-! ### Responses and raises -/

/-- Answer with a status and result bytes (30_encoding.md rule R73). -/
def State.respond (st : Status) (result : List Byte) (s : State) : State :=
  { s with responses := s.responses ++ [st.code :: result] }

/-- `raise X` (60_exceptions.md rule R233): the one shared operation of every declined operation. The response is the
single byte `X`; nothing is saved, no mode changes and control goes nowhere, so the block is ready for the next frame
and there is no return beside it (R238). -/
def State.raise (st : Status) (s : State) : State := s.respond st []

/-- Why a procedure ends early. -/
inductive Stop where
  /-- It raises a status (R233). -/
  | raised (st : Status)
  /-- The model faults. -/
  | fault (f : Fault)
  deriving DecidableEq, Repr

/-- End the operation early in the state `s` the procedure was entered in: every raise comes before the first write (R233). -/
def stop (s : State) : Stop → Outcome
  | .raised st => .next (s.raise st)
  | .fault f => .fault f

/-- End the operation after a procedure that was entered in `s`: answer OK with no result bytes, or end early. -/
def finish (s : State) : Except Stop State → Outcome
  | .ok t => .next (t.respond .ok [])
  | .error e => stop s e

/-! ### Byte accesses (20_memory.md rules R57 to R60) -/

/-- The cells of a buffer. -/
def State.mem (s : State) : Buf → Memory
  | .fb => s.fb
  | .tx => s.tx

/-- The state with other cells in a buffer. -/
def State.setMem (s : State) (b : Buf) (m : Memory) : State :=
  match b with
  | .fb => { s with fb := m }
  | .tx => { s with tx := m }

/-- The byte a buffer holds at an index, `none` for a byte of TX that nothing has written. -/
def State.byteAt (s : State) (b : Buf) (i : Nat) : Option Byte := Memory.read b.blank (s.mem b) i

/-- Read one byte. An index at or above `CAP` faults (R57), and so does an unwritten byte of TX (R37). -/
def readByte (b : Buf) (i : Nat) (s : State) : Except Stop Byte :=
  if i < s.cfg.cap then
    match s.byteAt b i with
    | some v => .ok v
    | none => .error (.fault (.unwritten b i))
  else .error (.fault (.bufferIndex b i))

/-- Write one byte. An index at or above `CAP` faults (R57). -/
def writeByte (b : Buf) (i : Nat) (v : Byte) (s : State) : Except Stop State :=
  if i < s.cfg.cap then .ok (s.setMem b (Memory.write b.blank (s.mem b) i v))
  else .error (.fault (.bufferIndex b i))

/-- `MemRead(B:i, n)`: single bytes at rising indices (00_scope.md rule R9, R57). -/
def memRead (b : Buf) (i n : Nat) (s : State) : Except Stop (List Byte) :=
  match n with
  | 0 => .ok []
  | n + 1 => do
    let v ← readByte b i s
    let vs ← memRead b (i + 1) n s
    .ok (v :: vs)

/-- `MemWrite(B:i, n, v)`: single bytes at rising indices, lowest first (R9, R57). -/
def memWrite (b : Buf) (i : Nat) (vs : List Byte) (s : State) : Except Stop State :=
  match vs with
  | [] => .ok s
  | v :: vs => do
    let s ← writeByte b i v s
    memWrite b (i + 1) vs s

/-! ### Radio calls and reset -/

/-- `Radio.<call>(args)`: append calls to the operation's ordered list (R9, R245). -/
def State.call (s : State) (cs : List RadioCall) : State := { s with radio := s.radio ++ cs }

/-- Reset (70_reset_and_hazards.md rule R260): every register of R20 to its reset value; no response and no radio call. -/
def State.applyReset (s : State) : State :=
  { State.initial s.cfg with inputs := s.inputs, responses := s.responses, radio := s.radio }

/-! ### Taking the next thing the host does -/

/-- Bytes of a transmission that are left for the next frame stay at the front (30_encoding.md rule R77). -/
def requeue (rest : List Byte) (more : List HostInput) : List HostInput :=
  match rest with
  | [] => more
  | b :: bs => .send (b :: bs) :: more

/-- The state with other pending inputs. -/
def State.withInputs (s : State) (q : List HostInput) : State := { s with inputs := q }

/-- What the block has to do next. -/
inductive Fetched where
  /-- Nothing to run: the block is idle (60_exceptions.md rule R247). -/
  | idle (s : State)
  /-- `rst` is asserted. -/
  | rst (s : State)
  /-- A whole command frame. -/
  | run (i : Instr) (s : State)
  /-- A frame that is declined before any operation starts. -/
  | decline (st : Status) (s : State)
  deriving DecidableEq, Repr

/-- Take the next command frame, or `rst`, off the pending inputs. A reserved opcode is a frame of one byte (R76). A
frame cut short takes the rest of its transmission with it (R77). -/
def fetch (s : State) : Fetched :=
  match s.inputs with
  | [] => .idle s
  | .rst :: more => .rst (s.withInputs more)
  | .send bytes :: more =>
    match decode bytes with
    | .frame i rest => .run i (s.withInputs (requeue rest more))
    | .rejected .empty => .idle (s.withInputs more)
    | .rejected (.reservedOpcode _) => .decline .badOpcode (s.withInputs (requeue bytes.tail more))
    | .rejected (.cutShort _) => .decline .badOperand (s.withInputs more)

end Sys2Proof.Machine
end

