-- ==== Sys2Proof/Machine/Operands.lean ====
section
/-! DEFINITION. The forms in which operands, lengths and fields stand as bytes (30_encoding.md rules R72, R81 to R83;
20_memory.md rules R51 to R54), and the constants of table K (00_scope.md rule R5). -/

namespace Sys2Proof.Machine

/-- A length stored or returned as a byte (R11). It is below 256 for every legal `CAP` (log 14). -/
def lenByte (n : Nat) : Byte := BitVec.ofNat 8 n

/-- `AD_NAME`: AD type byte of the name field (table K, R83). -/
def adName : Byte := 0x08

/-- `AD_DATA`: AD type byte of the data field (table K, R83). -/
def adData : Byte := 0xFF

/-- An AD structure: length byte counting the type byte and the value bytes, type byte, value bytes (R83; log 15). -/
def adStructure (ty : Byte) (value : List Byte) : List Byte := lenByte (value.length + 1) :: ty :: value

/-- `CRC_INIT`, the three placeholder bytes (table K). -/
def crcPlaceholder : List Byte := [0x55, 0x55, 0x55]

/-- Index of the first byte of the name field: `FIXED_LEN` (table K, R51). -/
def nameStart : Nat := 11

/-- Index of the first byte after the name field, where the data field stands (R182). -/
def dataStart (s : State) : Nat := 13 + s.nameLen

/-- The 24-bit CRC register in three bytes, `c0` the most significant (R54). -/
structure Acc where
  c0 : Byte
  c1 : Byte
  c2 : Byte
  deriving DecidableEq, Repr

/-- The register's bytes in the order they stand in a packet (R54). -/
def Acc.bytes (a : Acc) : List Byte := [a.c0, a.c1, a.c2]

/-- A packet as its bytes before the last three and its last three, the CRC start value. `none` below three bytes,
where an encoder operand has no meaning (43_encoder.md rule R154). -/
def splitPacket (p : List Byte) : Option (List Byte × Acc) :=
  match p.drop (p.length - 3) with
  | [c0, c1, c2] => some (p.take (p.length - 3), ⟨c0, c1, c2⟩)
  | _ => none

end Sys2Proof.Machine
end

