-- ==== Sys2Proof/Machine/BitReversal.lean ====
section
/-! DEFINITION. The bit-reversal unit (40_bit_reversal.md). -/

namespace Sys2Proof.Machine

/-- Bit `i` of `b`, standing at position `j`: the spec's `b[i] << j`. -/
def bitTo (b : Byte) (i j : Nat) : Byte := if b.getLsbD i then (1 : Byte) <<< j else 0

/-- `rev8` (R100): bit 7 becomes bit 0, and so on. -/
def rev8 (b : Byte) : Byte :=
  bitTo b 0 7 ||| bitTo b 1 6 ||| bitTo b 2 5 ||| bitTo b 3 4 |||
  bitTo b 4 3 ||| bitTo b 5 2 ||| bitTo b 6 1 ||| bitTo b 7 0

/-- REVB (R100). -/
def execRevb (b : Byte) (s : State) : Outcome := .next (s.respond .ok [rev8 b])

end Sys2Proof.Machine
end

