-- ==== Sys2Proof/Machine/Crc24.lean ====
section
/-! DEFINITION. The CRC-24 generator (41_crc24.md). -/

namespace Sys2Proof.Machine

/-- `CRC_TAP_B2` (table K). -/
def crcTapB2 : Byte := 0x5B

/-- `CRC_TAP_B1` (table K). -/
def crcTapB1 : Byte := 0x06

/-- The bit step (R111): one left shift of the three bytes as one register, then the taps if the bit shifted out
differs from the input bit. -/
def crcStep (acc : Acc) (inputBit : Bool) : Acc :=
  let feedback := acc.c0.getLsbD 7 != inputBit
  let s0 := acc.c0 <<< 1 ||| bitTo acc.c1 7 0
  let s1 := acc.c1 <<< 1 ||| bitTo acc.c2 7 0
  let s2 := acc.c2 <<< 1
  { c0 := s0
    c1 := if feedback then s1 ^^^ crcTapB1 else s1
    c2 := if feedback then s2 ^^^ crcTapB2 else s2 }

/-- The positions of a byte's bits in processing order, least significant first (R8). -/
def lsbFirst : List Nat := [0, 1, 2, 3, 4, 5, 6, 7]

/-- The eight steps of one byte (R110). -/
def crcByte (acc : Acc) (b : Byte) : Acc := lsbFirst.foldl (fun a i => crcStep a (b.getLsbD i)) acc

/-- `crc24` (R110): bytes in rising index order. No start value is loaded and nothing is done to the result (R114, R115). -/
def crc24 (data : List Byte) (acc : Acc) : Acc := data.foldl crcByte acc

/-- CRC24 (R110). -/
def execCrc24 (c0 c1 c2 : Byte) (data : List Byte) (s : State) : Outcome :=
  .next (s.respond .ok (crc24 data ⟨c0, c1, c2⟩).bytes)

end Sys2Proof.Machine
end

