-- ==== Sys2Proof/Machine/Whitening.lean ====
section
/-! DEFINITION. The whitening engine and its seed function (42_whitening.md). -/

namespace Sys2Proof.Machine

/-- `WH_TAP` (table K). -/
def whTap : Byte := 0x11

/-- `WH_SEED_OR` (table K). -/
def whSeedOr : Byte := 0x02

/-- The bit step (R131) on the 8-bit register `w` (R132) and the data bit `x`. -/
def whStep (w : Byte) (x : Bool) : Byte × Bool :=
  if w.getLsbD 7 then ((w ^^^ whTap) <<< 1, !x) else (w <<< 1, x)

/-- `d[i] <- x`. -/
def setBit (d : Byte) (i : Nat) (x : Bool) : Byte :=
  if x then d ||| (1 : Byte) <<< i else d &&& ~~~((1 : Byte) <<< i)

/-- The eight steps of one byte, least significant bit first (R130): the register and the byte after them. -/
def whByte (w d : Byte) : Byte × Byte :=
  lsbFirst.foldl (fun p i => ((whStep p.1 (p.2.getLsbD i)).1, setBit p.2 i (whStep p.1 (p.2.getLsbD i)).2)) (w, d)

/-- `whiten` (R130): the register is loaded once, from `seed`. -/
def whiten : List Byte → Byte → List Byte
  | [], _ => []
  | d :: ds, seed => (whByte seed d).2 :: whiten ds (whByte seed d).1

/-- `wseed` (R135). -/
def wseed (ch : Byte) : Byte := rev8 ch ||| whSeedOr

/-- WHITEN (R130). -/
def execWhiten (seed : Byte) (data : List Byte) (s : State) : Outcome :=
  .next (s.respond .ok (whiten data seed))

/-- WSEED (R135). -/
def execWseed (ch : Byte) (s : State) : Outcome := .next (s.respond .ok [wseed ch])

end Sys2Proof.Machine
end

