-- ==== Sys2Proof/Machine/Encoder.lean ====
section
/-! DEFINITION. The encoder pipeline (43_encoder.md). -/

namespace Sys2Proof.Machine

/-- The four steps of `encode` (R150, order R151) on a packet given as the bytes before its last three and those three:
CRC accumulated in the last three, those three reversed, all whitened, all reversed. -/
def encodeParts (body : List Byte) (start : Acc) (ch : Byte) : List Byte :=
  let crc := crc24 body start
  let reversed := body ++ crc.bytes.map rev8
  let whitened := whiten reversed (wseed ch)
  whitened.map rev8

/-- `encode(p, ch)` (R150), defined from three bytes on (R154). -/
def encodePacket (p : List Byte) (ch : Byte) : Option (List Byte) :=
  match splitPacket p with
  | some (body, start) => some (encodeParts body start ch)
  | none => none

/-- ENCODE (R150); BAD_OPERAND below three bytes (R154; log 7). -/
def execEncode (ch : Byte) (p : List Byte) (s : State) : Outcome :=
  match encodePacket p ch with
  | some q => .next (s.respond .ok q)
  | none => stop s (.raised .badOperand)

end Sys2Proof.Machine
end

