-- ==== Sys2Proof/Machine/FrameBuilder.lean ====
section
/-! DEFINITION. The advertising frame builder (45_frame_builder.md). -/

namespace Sys2Proof.Machine

/-- `setAddress` (R180): the register, then the frame's copy, least significant byte first. -/
def setAddress (a : DevAddr) (s : State) : Except Stop State :=
  memWrite .fb 2 (addrField a) { s with addr := a }

/-- SETADDR (R180). -/
def execSetaddr (a0 a1 a2 a3 a4 a5 : Byte) (s : State) : Outcome :=
  finish s (setAddress ⟨a0, a1, a2, a3, a4, a5⟩ s)

/-- `setName` (R181): the name structure, zeros to the end of the buffer, and the registers. -/
def setName (t : List Byte) (s : State) : Except Stop State :=
  if nameTooLong s t.length then .error (.raised .capacityExceeded)
  else do
    let s ← memWrite .fb nameStart (adStructure adName t) s
    let s ← memWrite .fb (13 + t.length) (List.replicate (s.cfg.cap - (13 + t.length)) 0x00) s
    .ok { s with
      nameSet := true
      nameLen := t.length
      dataSet := false
      dataLen := 0
      remain := s.cfg.cap - 16 - t.length }

/-- SETNAME (R181): answers the remaining capacity. -/
def execSetname (t : List Byte) (s : State) : Outcome :=
  match setName t s with
  | .ok u => .next (u.respond .ok [lenByte u.remain])
  | .error e => stop s e

/-- `setData` (R182): the precondition, then the capacity (R236), then the data structure after the name field. -/
def setData (x : List Byte) (s : State) : Except Stop State :=
  if s.nameSet then
    if dataTooLong s x.length then .error (.raised .capacityExceeded)
    else do
      let s ← memWrite .fb (dataStart s) (adStructure adData x) s
      .ok { s with dataSet := true, dataLen := x.length }
  else .error (.raised .preconditionViolated)

/-- SETDATA (R182). -/
def execSetdata (x : List Byte) (s : State) : Outcome := finish s (setData x s)

/-- CURLEN (R183). -/
def execCurlen (s : State) : Outcome := .next (s.respond .ok [lenByte (currentLength s)])

end Sys2Proof.Machine
end

