-- ==== Sys2Proof/Machine/Hopper.lean ====
section
/-! DEFINITION. The channel hopper (44_channel_hopper.md). -/

namespace Sys2Proof.Machine

/-- `CH_NUM` (R84, R170): 37, 38, 39. -/
def chNum : Fin 3 → Byte
  | 0 => 0x25
  | 1 => 0x26
  | 2 => 0x27

/-- `CH_FREQ` (R84, R170): 2, 26, 80. -/
def chFreq : Fin 3 → Byte
  | 0 => 0x02
  | 1 => 0x1A
  | 2 => 0x50

/-- The index modulo 3 (R12, R171): 0 to 1, 1 to 2, 2 to 0. -/
def nextIdx : Fin 3 → Fin 3
  | 0 => 1
  | 1 => 2
  | 2 => 0

/-- The state after `advance()`: the pair it returns is that of the old index (R171). -/
def State.hop (s : State) : State := { s with chidx := nextIdx s.chidx }

/-- ADVANCE (R171). -/
def execAdvance (s : State) : Outcome := .next (s.hop.respond .ok [chNum s.chidx, chFreq s.chidx])

end Sys2Proof.Machine
end

