-- ==== Sys2Proof/Machine/Transmit.lean ====
section
/-! DEFINITION. The beacon transmission controller (46_transmit_controller.md). -/

namespace Sys2Proof.Machine

/-- The three radio calls of one transmission, in order (R210 step 5, R212, R245). -/
def radioCalls (cfg : Config) (freq : Byte) (bytes : List Byte) : List RadioCall :=
  [.setChannelFrequency freq, .writeBytes bytes bytes.length, .pulseSignal cfg.txLevel cfg.txHoldMs]

/-- `transmitOnce` (R210, order R212). The test for FRAME_OVERRUN comes before the first write (R213; log 7). -/
def transmitOnce (s : State) : Except Stop State :=
  if frameTooLong s then .error (.raised .frameOverrun)
  else do
    let pktLen := currentLength s
    let total := totalLen s
    -- step 1
    let s ← memWrite .fb 1 [lenByte pktLen] s
    let s ← memWrite .fb (2 + pktLen) crcPlaceholder s
    -- step 2
    let plain ← memRead .fb 0 total s
    let s ← memWrite .tx 0 plain s
    -- step 3
    let chan := chNum s.chidx
    let freq := chFreq s.chidx
    let s := s.hop
    -- step 4
    let packet ← memRead .tx 0 total s
    match encodePacket packet chan with
    | none => .error (.raised .badOperand)
    | some coded =>
      let s ← memWrite .tx 0 coded s
      -- step 5
      let sent ← memRead .tx 0 total s
      .ok (s.call (radioCalls s.cfg freq sent))

/-- TXONCE (R210). -/
def execTxonce (s : State) : Outcome := finish s (transmitOnce s)

/-- SENDDATA (R211): a transmission that raises after an accepted `setData` keeps the data field (R233). -/
def execSenddata (x : List Byte) (s : State) : Outcome :=
  match setData x s with
  | .ok t => finish t (transmitOnce t)
  | .error e => stop s e

end Sys2Proof.Machine
end

