-- ==== Sys2Proof/Machine/Dispatch.lean ====
section
/-! DEFINITION. One arm per operation of table O (30_encoding.md rule R75). -/

namespace Sys2Proof.Machine

def exec (i : Instr) (s : State) : Host.Outcome State Fault Refusal :=
  match i with
  | .revb b => Sys2Proof.Machine.execRevb b s
  | .wseed ch => Sys2Proof.Machine.execWseed ch s
  | .crc24 c0 c1 c2 data => Sys2Proof.Machine.execCrc24 c0 c1 c2 data s
  | .whiten seed data => Sys2Proof.Machine.execWhiten seed data s
  | .encode ch packet => Sys2Proof.Machine.execEncode ch packet s
  | .advance => Sys2Proof.Machine.execAdvance s
  | .setaddr a0 a1 a2 a3 a4 a5 => Sys2Proof.Machine.execSetaddr a0 a1 a2 a3 a4 a5 s
  | .setname name => Sys2Proof.Machine.execSetname name s
  | .setdata data => Sys2Proof.Machine.execSetdata data s
  | .curlen => Sys2Proof.Machine.execCurlen s
  | .txonce => Sys2Proof.Machine.execTxonce s
  | .senddata data => Sys2Proof.Machine.execSenddata data s

end Sys2Proof.Machine
end

