-- ==== Sys2Proof/Machine/Step.lean ====
section
/-! DEFINITION. One step of the block: the next command frame, run to completion (00_scope.md rules R6, R13). -/

namespace Sys2Proof.Machine

/-- One step. With nothing pending the block is idle and keeps its state (60_exceptions.md rule R247); `rst` resets it
(70_reset_and_hazards.md rule R260); a frame that names no operation or is cut short is answered and changes nothing
(30_encoding.md rules R76, R77); every other frame is its operation. -/
def step (s : State) : Host.Outcome State Fault Refusal :=
  match fetch s with
  | .idle t => .next t
  | .rst t => .next t.applyReset
  | .run i t => exec i t
  | .decline st t => .next (t.raise st)

/-- `s` with the frame of a table word as the next thing the host sends (log 1). -/
def State.withFetchWord (s : State) (nbits w : Nat) : State :=
  s.withInputs (.send (tableFrame nbits w) :: s.inputs)

end Sys2Proof.Machine
end

