-- ==== Sys2Proof/Safety.lean ====
section
/-! DEFINITION. The terms claims are stated in: the invariant of 10_state.md rule R35, and reference forms of the CRC, of
the whitening stream and of a frame that are written apart from the meanings. -/

namespace Sys2Proof.Machine

/-! ### Reference forms -/

/-- The bits of a byte string in processing order: bytes by rising index, bits least significant first (R8). -/
def bitsLsbFirst (data : List Byte) : List Bool :=
  data.flatMap fun b => (List.range 8).map fun i => b.getLsbD i

/-- The CRC register as one 24-bit value, `acc[0]` most significant (R54, R112). -/
def reg24 (c0 c1 c2 : Byte) : BitVec 24 := c0 ++ c1 ++ c2

/-- The bit step on the 24-bit value, taps 0x00065B (R112). -/
def reg24Step (r : BitVec 24) (x : Bool) : BitVec 24 :=
  if r.getLsbD 23 != x then (r <<< 1) ^^^ 0x00065B#24 else r <<< 1

/-- The 24-bit register after a byte string. -/
def reg24Run (data : List Byte) (r : BitVec 24) : BitVec 24 := (bitsLsbFirst data).foldl reg24Step r

/-- The whitening register after `n` steps from `seed`; the data plays no part in it (R134 item 1). -/
def lfsr (seed : Byte) : Nat → Byte
  | 0 => seed
  | n + 1 => (if (lfsr seed n).getLsbD 7 then lfsr seed n ^^^ 0x11 else lfsr seed n) <<< 1

/-- The keystream bit of step `n`: the register's top bit before it (R131, R134 item 1). -/
def keyBit (seed : Byte) (n : Nat) : Bool := (lfsr seed n).getLsbD 7

/-- The whitening register that the bit step leaves after these data bits (R131): what R132 and R134 item 4 speak of. -/
def whRegister (seed : Byte) (bits : List Bool) : Byte := bits.foldl (fun w x => (whStep w x).1) seed

/-- Keystream byte `k`: bit `i` is the output bit of step `8k + i` (R134 item 1). -/
def keyByte (seed : Byte) (k : Nat) : Byte := BitVec.ofFnLE fun i : Fin 8 => keyBit seed (8 * k + i)

/-- The reverse pipeline of 43_encoder.md rule R156 on a packet as sent: the plaintext and the CRC register it carries. -/
def reversePipeline (q : List Byte) (ch : Byte) : List Byte × List Byte :=
  let u := whiten (q.map rev8) (wseed ch)
  (u.take (q.length - 3), (u.drop (q.length - 3)).map rev8)

/-- The plain packet a transmission encodes (R51, R210 steps 1 and 2), computed from the state before it: FB's bytes with
the length byte and the placeholder in place. -/
def plainPacket (s : State) : List Byte :=
  (List.range (totalLen s)).map fun k =>
    if k = 1 then BitVec.ofNat 8 (currentLength s)
    else if 2 + currentLength s ≤ k then 0x55
    else (s.byteAt .fb k).getD 0

/-- `k` steps in a row, stopping at the first that does not answer a next state (R13). -/
def runSteps : Nat → State → Outcome
  | 0, s => .next s
  | k + 1, s =>
    match step s with
    | .next t => runSteps k t
    | .fault f => .fault f
    | .refused r => .refused r

/-- The opcodes table O has (R75). -/
def isOpcode (op : Byte) : Bool :=
  (decide (0x01 ≤ op.toNat) && decide (op.toNat ≤ 0x06)) || (decide (0x10 ≤ op.toNat) && decide (op.toNat ≤ 0x15))

/-! ### The invariant -/

/-- The invariant of R35, with the legal parameters and the canonical form of both buffers. Item 1 of R35 is the type of
`chidx`. It holds after reset and every step keeps it; from a state that has it no step faults. -/
structure Inv (s : State) : Prop where
  /-- The parameters are legal (R5). -/
  legal : s.cfg.legal
  /-- FB is in canonical form, inside the capacity. -/
  fbWf : Memory.wf Buf.fb.blank s.cfg.cap s.fb
  /-- TX is in canonical form, inside the capacity. -/
  txWf : Memory.wf Buf.tx.blank s.cfg.cap s.tx
  /-- R35 item 2. -/
  noName : s.nameSet = false → s.nameLen = 0 ∧ s.dataSet = false ∧ s.dataLen = 0 ∧ s.remain = 0
  /-- R35 item 3. -/
  name : s.nameSet = true → s.nameLen ≤ s.cfg.cap - 16 ∧ s.remain = s.cfg.cap - 16 - s.nameLen
  /-- R35 item 4, a data field is present. -/
  data : s.dataSet = true → s.nameSet = true ∧ s.dataLen ≤ s.remain
  /-- R35 item 4, no data field is present. -/
  noData : s.dataSet = false → s.dataLen = 0
  /-- R35 item 5, the header. -/
  header : s.byteAt .fb 0 = some s.cfg.hdr
  /-- R35 item 5, the address: `FB[2+i] = ADDR[5-i]`. -/
  address : ∀ i, i < 6 → s.byteAt .fb (2 + i) = s.addr.bytes[5 - i]?
  /-- R35 item 5, the flags structure. -/
  flags : s.byteAt .fb 8 = some s.cfg.flagsAd.b0 ∧ s.byteAt .fb 9 = some s.cfg.flagsAd.b1 ∧
    s.byteAt .fb 10 = some s.cfg.flagsAd.b2
  /-- R35 item 6. -/
  nameField : s.nameSet = true →
    s.byteAt .fb 11 = some (BitVec.ofNat 8 (s.nameLen + 1)) ∧ s.byteAt .fb 12 = some 0x08
  /-- R35 item 7. -/
  dataField : s.dataSet = true →
    s.byteAt .fb (13 + s.nameLen) = some (BitVec.ofNat 8 (s.dataLen + 1)) ∧
      s.byteAt .fb (14 + s.nameLen) = some 0xFF

end Sys2Proof.Machine
end

