-- ==== Sys2Proof/Certificates/Slice0/Obligations.lean ====
section
/-! DEFINITION. The statements for the provers, from the numbered rules of spec/. A record update `{ s with … }` in a
conclusion says every field not named in it is unchanged: registers, buffers, parameters, pending inputs and histories. -/

open Sys2Proof Sys2Proof.Machine

/-! ### Command frames (30_encoding.md) -/

/-- R70 to R72: the decoder reads back every well-formed operation from its frame, whatever follows it. -/
def Obligations.DecodeOfEncodedFrame : Prop :=
  ∀ (i : Instr) (rest : List Byte), i.wf = true → decode (encode i ++ rest) = .frame i rest

/-- R70 to R72, R77: whatever the decoder accepts is the frame of a well-formed operation, then the rest. -/
def Obligations.DecodedBytesAreItsFrame : Prop :=
  ∀ (bytes : List Byte) (i : Instr) (rest : List Byte), decode bytes = .frame i rest →
    i.wf = true ∧ bytes = encode i ++ rest

/-- R75, R78: frames written out from table O and the assembly examples decode to their operations. -/
def Obligations.WrittenFramesDecode : Prop :=
  decode [0x01, 0x25] = .frame (.revb 0x25) [] ∧
    decode [0x02, 0x25] = .frame (.wseed 0x25) [] ∧
    decode [0x03, 0x55, 0x56, 0x57, 0x01, 0x42] = .frame (.crc24 0x55 0x56 0x57 [0x42]) [] ∧
    decode [0x04, 0xA6, 0x02, 0x42, 0x12] = .frame (.whiten 0xA6 [0x42, 0x12]) [] ∧
    decode [0x05, 0x26, 0x03, 0x55, 0x56, 0x57] = .frame (.encode 0x26 [0x55, 0x56, 0x57]) [] ∧
    decode [0x06, 0x13] = .frame .advance [0x13] ∧
    decode [0x10, 0x01, 0x23, 0x45, 0x67, 0x89, 0xAB] = .frame (.setaddr 0x01 0x23 0x45 0x67 0x89 0xAB) [] ∧
    decode [0x11, 0x03, 0x54, 0x61, 0x67] = .frame (.setname [0x54, 0x61, 0x67]) [] ∧
    decode [0x12, 0x02, 0x01, 0x02] = .frame (.setdata [0x01, 0x02]) [] ∧
    decode [0x13] = .frame .curlen [] ∧
    decode [0x14] = .frame .txonce [] ∧
    decode [0x15, 0x02, 0x01, 0x02] = .frame (.senddata [0x01, 0x02]) []

/-- R75, R76: exactly 0x00, 0x07 to 0x0F and 0x16 to 0xFF are reserved. -/
def Obligations.ReservedOpcodesAreThose : Prop :=
  ∀ (op : Byte) (r : List Byte), decode (op :: r) = .rejected (.reservedOpcode op) ↔
    op.toNat = 0x00 ∨ (0x07 ≤ op.toNat ∧ op.toNat ≤ 0x0F) ∨ 0x16 ≤ op.toNat

/-- R77: the decoder calls a byte string cut short exactly when its opcode is one of table O and it does not begin with
the whole frame of any operation. -/
def Obligations.CutShortIsNoWholeFrame : Prop :=
  ∀ (op : Byte) (r : List Byte), decode (op :: r) = .rejected (.cutShort op) ↔
    isOpcode op = true ∧ ∀ (i : Instr) (rest : List Byte), i.wf = true → op :: r ≠ encode i ++ rest

/-! ### A step (00_scope.md R6, R13) -/

/-- R6, R70: when the bytes the host sends begin with the frame of an operation, a step is that operation, in the state
whose pending inputs lack that frame: the bytes beyond it stay for the next frame (R77). -/
def Obligations.StepRunsDecodedOperation : Prop :=
  ∀ (s : State) (bytes rest : List Byte) (more : List HostInput) (i : Instr),
    s.inputs = .send bytes :: more → decode bytes = .frame i rest →
    step s = exec i { s with inputs := if rest = [] then more else .send rest :: more }

/-- R247, R261: with nothing pending the block is idle and keeps all its state. -/
def Obligations.IdleStepKeepsState : Prop :=
  ∀ s : State, s.inputs = [] → step s = .next s

/-- R76. The status code rests on the spec's own decision D20 (log 7): a reserved opcode is a frame of one byte, answered
and without effect. -/
def Obligations.ReservedOpcodeAnsweredWithoutEffect : Prop :=
  ∀ (s : State) (op : Byte) (r : List Byte) (more : List HostInput),
    s.inputs = .send (op :: r) :: more → isOpcode op = false →
    step s = .next { s with
      inputs := if r = [] then more else .send r :: more
      responses := s.responses ++ [[0x05]] }

/-- R77. The status code rests on the spec's own decision D21 (log 7): a frame cut short is answered and without effect. -/
def Obligations.CutFrameAnsweredWithoutEffect : Prop :=
  ∀ (s : State) (op : Byte) (bytes : List Byte) (more : List HostInput),
    s.inputs = .send bytes :: more → decode bytes = .rejected (.cutShort op) →
    step s = .next { s with inputs := more, responses := s.responses ++ [[0x04]] }

/-- R13, R70, R73: a step that meets bytes of the host gives exactly one response; no other step gives one. -/
def Obligations.OneResponsePerFrame : Prop :=
  ∀ s t : State, step s = .next t →
    ∃ rs, t.responses = s.responses ++ rs ∧
      ((∃ b bs more, s.inputs = .send (b :: bs) :: more) → rs.length = 1) ∧
      ((¬ ∃ b bs more, s.inputs = .send (b :: bs) :: more) → rs = [])

/-- R74: the status bytes. The numbers are the spec's own, and so are the last three conditions (R234, log 7). -/
def Obligations.StatusBytesAreThoseOfTheTable : Prop :=
  Status.ok.code = 0x00 ∧ Status.capacityExceeded.code = 0x01 ∧ Status.preconditionViolated.code = 0x02 ∧
    Status.frameOverrun.code = 0x03 ∧ Status.badOperand.code = 0x04 ∧ Status.badOpcode.code = 0x05

/-! ### Reset (10_state.md R36, R37; 70_reset_and_hazards.md R260) -/

/-- R36: the state after reset, for every parameter value: the registers and every byte of FB. That no name is
established, that FB[1] and FB[11..CAP) are zero and that the registers beside `CHIDX` start at zero is the spec's own
decision D18, that the address is a parameter its decision D7. -/
def Obligations.ResetState : Prop :=
  ∀ c : Config, (State.initial c).chidx = 0 ∧ (State.initial c).addr = c.addrReset ∧
    (State.initial c).nameSet = false ∧ (State.initial c).nameLen = 0 ∧ (State.initial c).dataSet = false ∧
    (State.initial c).dataLen = 0 ∧ (State.initial c).remain = 0 ∧
    (State.initial c).byteAt .fb 0 = some c.hdr ∧ (State.initial c).byteAt .fb 1 = some 0x00 ∧
    (∀ i, i < 6 → (State.initial c).byteAt .fb (2 + i) = c.addrReset.bytes[5 - i]?) ∧
    (State.initial c).byteAt .fb 8 = some c.flagsAd.b0 ∧ (State.initial c).byteAt .fb 9 = some c.flagsAd.b1 ∧
    (State.initial c).byteAt .fb 10 = some c.flagsAd.b2 ∧
    ∀ i, 11 ≤ i → i < c.cap → (State.initial c).byteAt .fb i = some 0x00

/-- R260 (`rst`; the decision D25, log 9): asserting reset puts every register and FB to its reset value, gives no
response and makes no radio call. No byte of TX has a value then (log 5). -/
def Obligations.ResetInputRestoresResetState : Prop :=
  ∀ (s : State) (more : List HostInput), s.inputs = .rst :: more →
    step s = .next { State.initial s.cfg with inputs := more, responses := s.responses, radio := s.radio }

/-- R35 after reset, for all legal parameters. -/
def Obligations.InvariantHoldsAfterReset : Prop :=
  (∀ c : Config, c.legal → Inv (State.initial c)) ∧ Inv State.reset

/-! ### The bit-reversal unit (40_bit_reversal.md) -/

/-- R100: REVB, frame `01 b`, answers the byte whose bit `i` is bit `7 - i` of the operand, and changes nothing else. -/
def Obligations.RevbAnswersReversedByte : Prop :=
  ∀ (s : State) (b : Byte), ∃ r : Byte,
    exec (.revb b) s = .next { s with responses := s.responses ++ [[0x00, r]] } ∧
      (∀ i, i < 8 → r.getLsbD i = b.getLsbD (7 - i)) ∧
      ∀ rest : List Byte, decode (0x01 :: b :: rest) = .frame (.revb b) rest

/-- R101: `rev8` is its own inverse, a bijection, and distributes over XOR, OR and AND. -/
def Obligations.ReversalProperties : Prop :=
  (∀ b : Byte, rev8 (rev8 b) = b) ∧ Function.Bijective rev8 ∧
    ∀ a b : Byte, rev8 (a ^^^ b) = rev8 a ^^^ rev8 b ∧ rev8 (a ||| b) = rev8 a ||| rev8 b ∧
      rev8 (a &&& b) = rev8 a &&& rev8 b

/-! ### The CRC-24 generator (41_crc24.md) -/

/-- R110, R111: CRC24, frame `03 c0 c1 c2 len data`, answers the three bytes of the 24-bit register
after all bits of the data, bytes by rising index and bits least significant first; it changes nothing else. The register is written here as one 24-bit value (R112). -/
def Obligations.CrcAnswersRegister : Prop :=
  ∀ (s : State) (c0 c1 c2 : Byte) (data : List Byte), ∃ r0 r1 r2 : Byte,
    exec (.crc24 c0 c1 c2 data) s = .next { s with responses := s.responses ++ [[0x00, r0, r1, r2]] } ∧
      reg24 r0 r1 r2 = reg24Run data (reg24 c0 c1 c2) ∧
      (data.length ≤ 255 → ∀ rest : List Byte,
        decode (0x03 :: c0 :: c1 :: c2 :: BitVec.ofNat 8 data.length :: (data ++ rest)) =
          .frame (.crc24 c0 c1 c2 data) rest)

/-- R112: the bit step on three bytes is the bit step on one 24-bit value, tap by tap. -/
def Obligations.CrcStepTapByTap : Prop :=
  ∀ (a : Acc) (x : Bool),
    let r := reg24 a.c0 a.c1 a.c2
    let r' := reg24 (crcStep a x).c0 (crcStep a x).c1 (crcStep a x).c2
    let fb := Bool.xor (r.getLsbD 23) x
    r'.getLsbD 0 = fb ∧ ∀ j, j < 23 →
      r'.getLsbD (j + 1) =
        if j + 1 = 1 ∨ j + 1 = 3 ∨ j + 1 = 4 ∨ j + 1 = 6 ∨ j + 1 = 9 ∨ j + 1 = 10 then Bool.xor (r.getLsbD j) fb
        else r.getLsbD j

/-- R116 item 2: the CRC of a concatenation is the CRC of the second part from the CRC of the first. -/
def Obligations.CrcChains : Prop :=
  ∀ (d e : List Byte) (a : Acc), crc24 (d ++ e) a = crc24 e (crc24 d a)

/-- R116 item 3: the CRC is linear over XOR, data and start value together. -/
def Obligations.CrcIsLinear : Prop :=
  ∀ (d e : List Byte) (a b : Acc), d.length = e.length →
    crc24 (List.zipWith (fun x y => x ^^^ y) d e) ⟨a.c0 ^^^ b.c0, a.c1 ^^^ b.c1, a.c2 ^^^ b.c2⟩ =
      ⟨(crc24 d a).c0 ^^^ (crc24 e b).c0, (crc24 d a).c1 ^^^ (crc24 e b).c1, (crc24 d a).c2 ^^^ (crc24 e b).c2⟩

/-- R116 item 4: running on over the reversed CRC bytes leaves zero. -/
def Obligations.CrcZeroResidue : Prop :=
  ∀ (d : List Byte) (a : Acc),
    crc24 (d ++ [rev8 (crc24 d a).c0, rev8 (crc24 d a).c1, rev8 (crc24 d a).c2]) a = ⟨0, 0, 0⟩

/-! ### The whitening engine (42_whitening.md) -/

/-- R130, R131: WHITEN, frame `04 seed len data`, answers the data, each bit flipped exactly when the register's top bit was
set at its step; the register is loaded once from the seed. It changes nothing else. -/
def Obligations.WhitenFlipsByTheStream : Prop :=
  ∀ (s : State) (seed : Byte) (data : List Byte), ∃ out : List Byte,
    exec (.whiten seed data) s = .next { s with responses := s.responses ++ [0x00 :: out] } ∧
      out.length = data.length ∧
      (∀ k i, k < data.length → i < 8 →
        (out.getD k 0).getLsbD i = Bool.xor ((data.getD k 0).getLsbD i) (keyBit seed (8 * k + i))) ∧
      (data.length ≤ 255 → ∀ rest : List Byte,
        decode (0x04 :: seed :: BitVec.ofNat 8 data.length :: (data ++ rest)) = .frame (.whiten seed data) rest)

/-- R134 item 2: whitening twice from the same seed gives the data back. -/
def Obligations.WhiteningIsAnInvolution : Prop :=
  ∀ (data : List Byte) (seed : Byte), whiten (whiten data seed) seed = data

/-- R132, R134 item 4: the register that the bit step of WHITEN leaves, whatever the data bits, from the seed of a channel
index 0 to 39. Bit 0 is clear at the start of every step. The register is back at the seed after 127 steps and at no step
before, so the bit the step puts out for a data bit repeats every 127 steps. A byte of WHITEN is eight such steps on its
bits, least significant first. -/
def Obligations.WhiteningRegisterOfChannels : Prop :=
  (∀ ch : Byte, ch.toNat < 40 →
    (∀ bits : List Bool, (whRegister (wseed ch) bits).getLsbD 0 = false) ∧
      (∀ bits : List Bool, bits.length = 127 → whRegister (wseed ch) bits = wseed ch) ∧
      (∀ bits : List Bool, 0 < bits.length → bits.length < 127 → whRegister (wseed ch) bits ≠ wseed ch) ∧
      ∀ (bits bits' : List Bool) (x : Bool), bits'.length = bits.length + 127 →
        (whStep (whRegister (wseed ch) bits') x).2 = (whStep (whRegister (wseed ch) bits) x).2) ∧
    ∀ w d : Byte, (whByte w d).1 = whRegister w ((List.range 8).map fun i => d.getLsbD i)

/-- R135: WSEED, frame `02 ch`, answers the reversed channel index with bit 1 set, for every byte; it changes
nothing else. -/
def Obligations.WseedAnswersSeed : Prop :=
  ∀ (s : State) (ch : Byte), ∃ r : Byte,
    exec (.wseed ch) s = .next { s with responses := s.responses ++ [[0x00, r]] } ∧
      r.getLsbD 1 = true ∧ (∀ i, i < 8 → i ≠ 1 → r.getLsbD i = ch.getLsbD (7 - i)) ∧
      ∀ rest : List Byte, decode (0x02 :: ch :: rest) = .frame (.wseed ch) rest

/-! ### The encoder (43_encoder.md) -/

/-- R150, R151: ENCODE answers the four steps in their order, for every packet of three bytes or more, and changes
nothing else; below three bytes it raises BAD_OPERAND (R154, decision D19, log 7). -/
def Obligations.EncodeAnswersFourSteps : Prop :=
  (∀ (s : State) (ch : Byte) (body : List Byte) (c : Acc),
    exec (.encode ch (body ++ [c.c0, c.c1, c.c2])) s = .next { s with
      responses := s.responses ++
        [0x00 :: (whiten (body ++ [rev8 (crc24 body c).c0, rev8 (crc24 body c).c1, rev8 (crc24 body c).c2])
          (wseed ch)).map rev8] }) ∧
    ∀ (s : State) (ch : Byte) (p : List Byte), p.length < 3 →
      exec (.encode ch p) s = .next { s with responses := s.responses ++ [[0x04]] }

/-- R155: the closed form. Each data byte leaves whitened and reversed; each CRC byte leaves in its natural order, XORed
with the reversed keystream byte. -/
def Obligations.EncodeClosedForm : Prop :=
  ∀ (s : State) (ch : Byte) (p : List Byte), 3 ≤ p.length → ∃ (q : List Byte) (c : Acc),
    exec (.encode ch p) s = .next { s with responses := s.responses ++ [0x00 :: q] } ∧
      q.length = p.length ∧
      c = crc24 (p.take (p.length - 3))
        ⟨p.getD (p.length - 3) 0, p.getD (p.length - 2) 0, p.getD (p.length - 1) 0⟩ ∧
      (∀ j, j < p.length - 3 → q.getD j 0 = rev8 (p.getD j 0 ^^^ keyByte (wseed ch) j)) ∧
      q.getD (p.length - 3) 0 = c.c0 ^^^ rev8 (keyByte (wseed ch) (p.length - 3)) ∧
      q.getD (p.length - 2) 0 = c.c1 ^^^ rev8 (keyByte (wseed ch) (p.length - 2)) ∧
      q.getD (p.length - 1) 0 = c.c2 ^^^ rev8 (keyByte (wseed ch) (p.length - 1))

/-- R156: the reverse pipeline on what ENCODE answers gives back the plaintext and the CRC of it. -/
def Obligations.ReversePipelineRecovers : Prop :=
  ∀ (p q : List Byte) (ch : Byte), encodePacket p ch = some q →
    (reversePipeline q ch).1 = p.take (p.length - 3) ∧
      (reversePipeline q ch).2 = (crc24 (p.take (p.length - 3))
        ⟨p.getD (p.length - 3) 0, p.getD (p.length - 2) 0, p.getD (p.length - 1) 0⟩).bytes

/-- R157 items 1 and 2: for one channel, an output byte before the last three depends on the packet byte at its place
only, and different packet bytes give different output bytes. -/
def Obligations.EncodeActsBytewiseOnData : Prop :=
  ∀ (p p' q q' : List Byte) (ch : Byte), encodePacket p ch = some q → encodePacket p' ch = some q' →
    ∀ j, j < p.length - 3 → j < p'.length - 3 → (q.getD j 0 = q'.getD j 0 ↔ p.getD j 0 = p'.getD j 0)

/-! ### The channel hopper (44_channel_hopper.md) -/

/-- R170, R171: ADVANCE, frame `06`, answers the pair of the index before the increment and moves the index modulo 3; it
changes nothing else. The index is 0 after reset. -/
def Obligations.AdvanceAnswersCurrentPair : Prop :=
  (∀ c : Config, (State.initial c).chidx.val = 0) ∧ ∀ s : State, ∃ (num freq : Byte) (next : Fin 3),
    exec .advance s = .next { s with chidx := next, responses := s.responses ++ [[0x00, num, freq]] } ∧
      next.val = (s.chidx.val + 1) % 3 ∧
      (s.chidx.val = 0 → num.toNat = 37 ∧ freq.toNat = 2) ∧
      (s.chidx.val = 1 → num.toNat = 38 ∧ freq.toNat = 26) ∧
      (s.chidx.val = 2 → num.toNat = 39 ∧ freq.toNat = 80) ∧
      ∀ rest : List Byte, decode (0x06 :: rest) = .frame .advance rest

/-- R172: `k` frames ADVANCE in a row move the index by `k` modulo 3 and answer the pairs in fixed order, wrapping after
the third. -/
def Obligations.AdvancesRotate : Prop :=
  ∀ (k : Nat) (s : State), s.inputs = List.replicate k (.send [0x06]) →
    ∃ next : Fin 3, next.val = (s.chidx.val + k) % 3 ∧
      runSteps k s = .next { s with
        chidx := next
        inputs := []
        responses := s.responses ++ (List.range k).map fun j =>
          (0x00 : Byte) :: [[0x25, 0x02], [0x26, 0x1A], [0x27, 0x50]].getD ((s.chidx.val + j) % 3) [] }

/-! ### The frame builder (45_frame_builder.md) -/

/-- R180: SETADDR, frame `10 a0 a1 a2 a3 a4 a5`, stores the address and writes it least significant byte first into
FB[2..8); every other byte and register is unchanged. -/
def Obligations.SetaddrStoresAddress : Prop :=
  ∀ (s : State) (a0 a1 a2 a3 a4 a5 : Byte), s.cfg.legal → ∃ fb' : Memory,
    exec (.setaddr a0 a1 a2 a3 a4 a5) s = .next { s with
      addr := ⟨a0, a1, a2, a3, a4, a5⟩
      fb := fb'
      responses := s.responses ++ [[0x00]] } ∧
      (∀ i, Memory.read Buf.fb.blank fb' i =
        if 2 ≤ i ∧ i < 8 then [a5, a4, a3, a2, a1, a0][i - 2]? else s.byteAt .fb i) ∧
      ∀ rest : List Byte,
        decode (0x10 :: a0 :: a1 :: a2 :: a3 :: a4 :: a5 :: rest) = .frame (.setaddr a0 a1 a2 a3 a4 a5) rest

/-- R181: SETNAME within the budget writes the name structure, zeros the rest of the buffer, sets the registers and
answers the remaining capacity; beyond the budget it answers CAPACITY_EXCEEDED and writes nothing. The budget is the
spec's decision D9, the length byte its decision D8 (log 15). -/
def Obligations.SetnameWritesNameField : Prop :=
  ∀ (s : State) (t : List Byte), s.cfg.legal →
    (t.length ≤ s.cfg.cap - 16 → ∃ fb' : Memory,
      exec (.setname t) s = .next { s with
        fb := fb'
        nameSet := true
        nameLen := t.length
        dataSet := false
        dataLen := 0
        remain := s.cfg.cap - 16 - t.length
        responses := s.responses ++ [[0x00, BitVec.ofNat 8 (s.cfg.cap - 11 - t.length - 2 - 3)]] } ∧
        ∀ i, Memory.read Buf.fb.blank fb' i =
          if i < 11 ∨ s.cfg.cap ≤ i then s.byteAt .fb i
          else if i = 11 then some (BitVec.ofNat 8 (t.length + 1))
          else if i = 12 then some 0x08
          else some (t.getD (i - 13) 0x00)) ∧
      (s.cfg.cap - 16 < t.length →
        exec (.setname t) s = .next { s with responses := s.responses ++ [[0x01]] })

/-- R182: SETDATA after a name and within the remaining capacity writes the data structure right after the name field and
sets its registers; beyond the capacity it answers CAPACITY_EXCEEDED, before a name PRECONDITION_VIOLATED, and writes
nothing. Bytes beyond the field keep their old values. The length byte is the spec's decision D8 (log 15), the answer before
a name its decision D10 (log 7). -/
def Obligations.SetdataWritesDataField : Prop :=
  ∀ (s : State) (x : List Byte), Inv s →
    (s.nameSet = true → x.length ≤ s.remain → ∃ fb' : Memory,
      exec (.setdata x) s = .next { s with
        fb := fb'
        dataSet := true
        dataLen := x.length
        responses := s.responses ++ [[0x00]] } ∧
        ∀ i, Memory.read Buf.fb.blank fb' i =
          if dataStart s ≤ i ∧ i < dataStart s + (2 + x.length) then
            (BitVec.ofNat 8 (x.length + 1) :: 0xFF :: x)[i - dataStart s]?
          else s.byteAt .fb i) ∧
      (s.nameSet = true → s.remain < x.length →
        exec (.setdata x) s = .next { s with responses := s.responses ++ [[0x01]] }) ∧
      (s.nameSet = false → exec (.setdata x) s = .next { s with responses := s.responses ++ [[0x02]] })

/-- R183: CURLEN, frame `13`, answers the length of the fields present, as a byte that does not wrap in a state that keeps
R35, and changes nothing else. -/
def Obligations.CurlenAnswersLength : Prop :=
  ∀ s : State, ∃ b : Byte,
    exec .curlen s = .next { s with responses := s.responses ++ [[0x00, b]] } ∧
      (Inv s → b.toNat = 6 + 3 + (if s.nameSet = true then 2 + s.nameLen else 0) +
        (if s.dataSet = true then 2 + s.dataLen else 0)) ∧
      ∀ rest : List Byte, decode (0x13 :: rest) = .frame .curlen rest

/-- R184 (and the capacity property of 95_test_vectors.md 1.4): after an accepted SETNAME, SETDATA is accepted exactly when
the data fits `capacity - 11 - nameLen - 2 - 3`. -/
def Obligations.CapacityFormulaDecidesSetdata : Prop :=
  ∀ (s s1 : State) (t x : List Byte), Inv s → t.length ≤ s.cfg.cap - 16 → exec (.setname t) s = .next s1 →
    (x.length ≤ s.cfg.cap - 11 - t.length - 2 - 3 →
      ∃ s2, exec (.setdata x) s1 = .next s2 ∧ s2.responses = s1.responses ++ [[0x00]] ∧ s2.dataSet = true ∧
        s2.dataLen = x.length) ∧
      (s.cfg.cap - 11 - t.length - 2 - 3 < x.length →
        exec (.setdata x) s1 = .next { s1 with responses := s1.responses ++ [[0x01]] })

/-- R267: after an accepted SETNAME no data field is counted, whatever was set before. -/
def Obligations.RenamingErasesData : Prop :=
  ∀ (s s1 : State) (t : List Byte), s.cfg.legal → t.length ≤ s.cfg.cap - 16 → exec (.setname t) s = .next s1 →
    s1.dataSet = false ∧
      exec .curlen s1 = .next { s1 with responses := s1.responses ++ [[0x00, BitVec.ofNat 8 (11 + t.length)]] }

/-- R185: no operation of the frame builder changes the header, the length byte or the flags structure. -/
def Obligations.BuilderKeepsHeaderLengthFlags : Prop :=
  ∀ (i : Instr) (s t : State),
    (∃ a0 a1 a2 a3 a4 a5, i = .setaddr a0 a1 a2 a3 a4 a5) ∨ (∃ n, i = .setname n) ∨ (∃ x, i = .setdata x) ∨
      i = .curlen → exec i s = .next t →
    t.byteAt .fb 0 = s.byteAt .fb 0 ∧ t.byteAt .fb 1 = s.byteAt .fb 1 ∧
      ∀ k, 8 ≤ k → k < 11 → t.byteAt .fb k = s.byteAt .fb k

/-! ### The transmission controller (46_transmit_controller.md) -/

/-- R210, R212: TXONCE on a frame that fits. FB gets the length byte and the placeholder, TX the encoded packet, the
hopper moves, and the three radio calls come in their order, with the encoding of the plain frame for the channel of the
old index. Every other byte and register is unchanged. -/
def Obligations.TxonceTransmits : Prop :=
  ∀ s : State, totalLen s ≤ s.cfg.cap → ∃ (fb' tx' : Memory) (next : Fin 3) (num freq : Byte) (q : List Byte),
    exec .txonce s = .next { s with
      fb := fb'
      tx := tx'
      chidx := next
      responses := s.responses ++ [[0x00]]
      radio := s.radio ++ [.setChannelFrequency freq, .writeBytes q (totalLen s),
        .pulseSignal s.cfg.txLevel s.cfg.txHoldMs] } ∧
      next.val = (s.chidx.val + 1) % 3 ∧
      (num, freq) = ([(0x25, 0x02), (0x26, 0x1A), (0x27, 0x50)] : List (Byte × Byte)).getD s.chidx.val (0, 0) ∧
      encodePacket (plainPacket s) num = some q ∧ q.length = totalLen s ∧
      (∀ i, Memory.read Buf.fb.blank fb' i =
        if i = 1 then some (BitVec.ofNat 8 (currentLength s))
        else if 2 + currentLength s ≤ i ∧ i < totalLen s then some 0x55
        else s.byteAt .fb i) ∧
      ∀ i, Memory.read Buf.tx.blank tx' i = if i < totalLen s then q[i]? else s.byteAt .tx i

/-- R213, the spec's own decision D12 (log 7): a frame that does not fit is answered and nothing is written, the hopper
does not move and no radio call is made. -/
def Obligations.TxonceOverrunWithoutEffect : Prop :=
  ∀ s : State, s.cfg.cap < 2 + currentLength s + 3 →
    exec .txonce s = .next { s with responses := s.responses ++ [[0x03]] }

/-- R211: SENDDATA, frame `15 d x`, declines as SETDATA does, and after an accepted `setData` it is TXONCE, run in the
state SETDATA leaves (less SETDATA's own response). So where that TXONCE is refused the data field stays, which is the
spec's own decision D22, and a decline is a next state (log 7). -/
def Obligations.SenddataIsSetdataThenTxonce : Prop :=
  ∀ (s : State) (x : List Byte),
    (s.nameSet = false ∨ s.remain < x.length → exec (.senddata x) s = exec (.setdata x) s) ∧
      (∀ s1 : State, s.nameSet = true → x.length ≤ s.remain → exec (.setdata x) s = .next s1 →
        exec (.senddata x) s = exec .txonce { s1 with responses := s.responses }) ∧
      (x.length ≤ 255 → ∀ rest : List Byte,
        decode (0x15 :: BitVec.ofNat 8 x.length :: (x ++ rest)) = .frame (.senddata x) rest)

/-- R211, R210: SENDDATA on data that is accepted and whose frame fits: the data field (its length byte is the spec's
decision D8, log 15), then one transmission. -/
def Obligations.SenddataTransmits : Prop :=
  ∀ (s : State) (x : List Byte), Inv s → s.nameSet = true → x.length ≤ s.remain →
    18 + s.nameLen + x.length ≤ s.cfg.cap →
    ∃ (fb' tx' : Memory) (next : Fin 3) (num freq : Byte) (q : List Byte),
      exec (.senddata x) s = .next { s with
        fb := fb'
        tx := tx'
        chidx := next
        dataSet := true
        dataLen := x.length
        responses := s.responses ++ [[0x00]]
        radio := s.radio ++ [.setChannelFrequency freq, .writeBytes q (18 + s.nameLen + x.length),
          .pulseSignal s.cfg.txLevel s.cfg.txHoldMs] } ∧
        next.val = (s.chidx.val + 1) % 3 ∧
        (num, freq) = ([(0x25, 0x02), (0x26, 0x1A), (0x27, 0x50)] : List (Byte × Byte)).getD s.chidx.val (0, 0) ∧
        encodePacket ((List.range (18 + s.nameLen + x.length)).map fun k => (Memory.read Buf.fb.blank fb' k).getD 0) num
          = some q ∧
        (∀ i, Memory.read Buf.fb.blank fb' i =
          if i = 1 then some (BitVec.ofNat 8 (13 + s.nameLen + x.length))
          else if dataStart s ≤ i ∧ i < dataStart s + (2 + x.length) then
            (BitVec.ofNat 8 (x.length + 1) :: 0xFF :: x)[i - dataStart s]?
          else if dataStart s + (2 + x.length) ≤ i ∧ i < dataStart s + (2 + x.length) + 3 then some 0x55
          else s.byteAt .fb i) ∧
        ∀ i, Memory.read Buf.tx.blank tx' i = if i < 18 + s.nameLen + x.length then q[i]? else s.byteAt .tx i

/-- R211 corner case, R233 (decisions D12 and D22, log 7): in the overrun band SENDDATA keeps the data field, answers and
transmits nothing. The field's length byte `d + 1` is the spec's decision D8 (log 15, PRESUMED). -/
def Obligations.SenddataOverrunKeepsDataField : Prop :=
  ∀ (s : State) (x : List Byte), Inv s → s.nameSet = true → x.length ≤ s.remain →
    s.cfg.cap < 18 + s.nameLen + x.length →
    ∃ fb' : Memory,
      exec (.senddata x) s = .next { s with
        fb := fb'
        dataSet := true
        dataLen := x.length
        responses := s.responses ++ [[0x03]] } ∧
        ∀ i, Memory.read Buf.fb.blank fb' i =
          if dataStart s ≤ i ∧ i < dataStart s + (2 + x.length) then
            (BitVec.ofNat 8 (x.length + 1) :: 0xFF :: x)[i - dataStart s]?
          else s.byteAt .fb i

/-- R184, R271: from a state that keeps R35, a frame with a data field is transmitted exactly when `n + d <= CAP - 18`; a
frame without a data field always is, up to a name of `CAP - 16` bytes. That the other frames are answered with a next
state that makes no radio call is the spec's own decision D12 (log 7). -/
def Obligations.TransmittedExactlyWhenItFits : Prop :=
  ∀ s : State, Inv s → ∃ t, exec .txonce s = .next t ∧
    (s.dataSet = true → (t.radio = s.radio ↔ s.cfg.cap < 18 + s.nameLen + s.dataLen)) ∧
    (s.dataSet = false → t.radio ≠ s.radio)

/-- R214: a receiver that knows the channel recovers the plain frame and the CRC of it, from the start value 55 55 55, from
the bytes of the radio call. -/
def Obligations.TransmissionIsRecoverable : Prop :=
  ∀ s : State, totalLen s ≤ s.cfg.cap → ∃ (t : State) (freq : Byte) (q : List Byte),
    exec .txonce s = .next t ∧
      t.radio = s.radio ++ [.setChannelFrequency freq, .writeBytes q q.length,
        .pulseSignal s.cfg.txLevel s.cfg.txHoldMs] ∧
      (reversePipeline q (BitVec.ofNat 8 (37 + s.chidx.val))).1 = (plainPacket s).take (totalLen s - 3) ∧
      (reversePipeline q (BitVec.ofNat 8 (37 + s.chidx.val))).2 =
        (crc24 ((plainPacket s).take (totalLen s - 3)) ⟨0x55, 0x55, 0x55⟩).bytes

/-- R212, R245: a step makes no radio call or exactly three, in the order frequency, payload, pulse, and never
`writeRegister`. -/
def Obligations.RadioCallsComeInThrees : Prop :=
  ∀ s t : State, step s = .next t →
    t.radio = s.radio ∨ ∃ (freq : Byte) (q : List Byte),
      t.radio = s.radio ++ [.setChannelFrequency freq, .writeBytes q q.length,
        .pulseSignal s.cfg.txLevel s.cfg.txHoldMs] ∧
        t.chidx.val = (s.chidx.val + 1) % 3

/-! ### The whole machine -/

/-- R35 (with the canonical form of both buffers): every step keeps the invariant. -/
def Obligations.StepKeepsInvariant : Prop :=
  ∀ s t : State, Inv s → step s = .next t → Inv t

/-- R13, R57: from a state that keeps R35 every step answers a next state: the block cannot hang, no index at or above
`CAP` is computed and no byte of TX is read before it is written. -/
def Obligations.StepNeverStops : Prop :=
  ∀ s : State, Inv s → ∃ t, step s = .next t

/-- R233: an operation that does not answer OK answers one byte and has changed nothing else, except a SENDDATA in the
overrun band, which has changed FB, DATA_SET and DATALEN only. The model takes a decline
as a next state (log 7). -/
def Obligations.DeclinedOperationsChangeNothing : Prop :=
  ∀ (i : Instr) (s t : State), exec i s = .next t →
    (∃ r, t.responses = s.responses ++ [0x00 :: r]) ∨
      ∃ st : Byte, st ≠ 0x00 ∧
        (t = { s with responses := s.responses ++ [[st]] } ∨
          ((∃ x, i = .senddata x) ∧ s.cfg.cap < totalLen t ∧
            t = { s with fb := t.fb, dataSet := true, dataLen := t.dataLen, responses := s.responses ++ [[st]] }))

/-- Table S of R20: which operations write which item. No operation changes a parameter or takes an input. -/
def Obligations.OnlyListedOperationsWrite : Prop :=
  ∀ (i : Instr) (s t : State), exec i s = .next t →
    t.cfg = s.cfg ∧ t.inputs = s.inputs ∧
      (t.tx ≠ s.tx → i = .txonce ∨ ∃ x, i = .senddata x) ∧
      (t.addr ≠ s.addr → ∃ a0 a1 a2 a3 a4 a5, i = .setaddr a0 a1 a2 a3 a4 a5) ∧
      (t.chidx ≠ s.chidx → i = .advance ∨ i = .txonce ∨ ∃ x, i = .senddata x) ∧
      (t.nameSet ≠ s.nameSet → (∃ n, i = .setname n) ∧ t.nameSet = true) ∧
      (t.nameLen ≠ s.nameLen → ∃ n, i = .setname n) ∧
      (t.remain ≠ s.remain → ∃ n, i = .setname n) ∧
      (t.dataSet ≠ s.dataSet → (∃ n, i = .setname n) ∨ (∃ x, i = .setdata x) ∨ ∃ x, i = .senddata x) ∧
      (t.dataLen ≠ s.dataLen → (∃ n, i = .setname n) ∨ (∃ x, i = .setdata x) ∨ ∃ x, i = .senddata x) ∧
      (t.fb ≠ s.fb → (∃ a0 a1 a2 a3 a4 a5, i = .setaddr a0 a1 a2 a3 a4 a5) ∨ (∃ n, i = .setname n) ∨
        (∃ x, i = .setdata x) ∨ i = .txonce ∨ ∃ x, i = .senddata x)

/-- R22: what TX holds between operations influences no response, no radio call and no other item of the state. -/
def Obligations.TxContentIsNeverRead : Prop :=
  ∀ (s t : State) (m : Memory), step s = .next t → ∃ m' : Memory, step { s with tx := m } = .next { t with tx := m' }

/-- R34: no rule reads the histories: a step only appends to them, and the same whatever they held. -/
def Obligations.HistoriesAreNeverRead : Prop :=
  ∀ (s t : State) (rs : List (List Byte)) (cs : List RadioCall), step s = .next t →
    ∃ (rs' : List (List Byte)) (cs' : List RadioCall),
      t.responses = s.responses ++ rs' ∧ t.radio = s.radio ++ cs' ∧
        step { s with responses := rs, radio := cs } = .next { t with responses := rs ++ rs', radio := cs ++ cs' }

/-- R268: bytes of FB at or above `2 + pktLen` never reach the radio. -/
def Obligations.StaleBytesAreNeverSent : Prop :=
  ∀ (s : State) (m : Memory),
    (∀ i, i < 2 + currentLength s → Memory.read Buf.fb.blank m i = s.byteAt .fb i) →
    ∀ t t' : State, exec .txonce s = .next t → exec .txonce { s with fb := m } = .next t' →
      t'.radio = t.radio ∧ t'.tx = t.tx

/-- The canonical form of a buffer (the model's own, log 5 and log 8): two buffers that read alike at every index are equal
data. -/
def Obligations.BuffersThatReadAlikeAreEqual : Prop :=
  ∀ (blank : Option Byte) (cap : Nat) (m n : Memory), Memory.wf blank cap m → Memory.wf blank cap n →
    (∀ i, Memory.read blank m i = Memory.read blank n i) → m = n
end

