-- ==== Sys2Proof/Laws/Codec.lean ====
section
/-! SUPPORT. What taking counted bytes off a frame does. -/

namespace Sys2Proof

/-- Taking as many bytes as stand before the rest. -/
theorem takeExact_append (d rest : List Byte) : takeExact d.length (d ++ rest) = some (d, rest) := by
  induction d with
  | nil => rfl
  | cons b d ih => simp [takeExact, ih]

/-- Bytes are taken only as they stand. -/
theorem takeExact_some (n : Nat) (r d rest : List Byte) (h : takeExact n r = some (d, rest)) :
    r = d ++ rest ∧ d.length = n := by
  induction n generalizing r d with
  | zero =>
    simp only [takeExact, Option.some.injEq, Prod.mk.injEq] at h
    simp [← h.1, h.2]
  | succ n ih =>
    cases r with
    | nil => simp [takeExact] at h
    | cons b r =>
      rw [takeExact] at h
      cases ht : takeExact n r with
      | none => simp [ht] at h
      | some p =>
        obtain ⟨d', rest'⟩ := p
        simp only [ht, Option.some.injEq, Prod.mk.injEq] at h
        obtain ⟨rfl, rfl⟩ := h
        obtain ⟨rfl, rfl⟩ := ih r d' ht
        simp

/-- A `len` byte carries every length it has room for (R72). -/
theorem toNat_len (d : List Byte) (h : fitsLen d = true) : (BitVec.ofNat 8 d.length).toNat = d.length := by
  have h' : d.length ≤ 255 := of_decide_eq_true h
  rw [BitVec.toNat_ofNat]
  omega

end Sys2Proof
end

