-- ==== Sys2Proof/Laws/Memory.lean ====
section
/-! SUPPORT. What the buffer operations do: read after write, and that they keep the canonical form. -/

namespace Sys2Proof.Machine

theorem cellAt_put (m : Memory) (i j : Nat) (b : Byte) :
    Memory.cellAt (Memory.put m i b) j = if j = i then some b else Memory.cellAt m j := by
  induction m with
  | nil => simp [Memory.put, Memory.cellAt, eq_comm]
  | cons c rest ih =>
    obtain ⟨k, v⟩ := c
    unfold Memory.put
    split_ifs <;> simp only [Memory.cellAt, ih] <;> split_ifs <;> first | rfl | omega

theorem cellAt_erase (m : Memory) (i j : Nat) :
    Memory.cellAt (Memory.erase m i) j = if j = i then none else Memory.cellAt m j := by
  unfold Memory.erase
  induction m with
  | nil => simp [Memory.cellAt]
  | cons c rest ih =>
    obtain ⟨k, v⟩ := c
    by_cases hk : k = i
    · subst hk
      simp only [bne_self_eq_false, Bool.false_eq_true, not_false_eq_true, List.filter_cons_of_neg, ih, Memory.cellAt]
      split_ifs <;> first | rfl | omega
    · simp only [bne_iff_ne, ne_eq, hk, not_false_eq_true, List.filter_cons_of_pos, Memory.cellAt, ih]
      split_ifs <;> first | rfl | omega

/-- A read after a write: the written byte there, the old byte everywhere else. -/
theorem read_write (blank : Option Byte) (m : Memory) (i j : Nat) (b : Byte) :
    Memory.read blank (Memory.write blank m i b) j = if j = i then some b else Memory.read blank m j := by
  unfold Memory.write
  split
  · subst blank
    simp only [Memory.read, cellAt_erase]
    split_ifs <;> rfl
  · cases blank
    · simp only [Memory.read, cellAt_put]
    · simp only [Memory.read, cellAt_put]
      split_ifs <;> rfl

/-- A read after writing bytes at rising indices. -/
theorem read_writeAll (blank : Option Byte) (bs : List Byte) (m : Memory) (i j : Nat) :
    Memory.read blank (Memory.writeAll blank m i bs) j =
      if i ≤ j ∧ j < i + bs.length then bs[j - i]? else Memory.read blank m j := by
  induction bs generalizing m i with
  | nil =>
    rw [if_neg (by simp only [List.length_nil]; omega)]
    rfl
  | cons b bs ih =>
    rw [Memory.writeAll, ih, read_write, List.length_cons]
    by_cases h1 : i + 1 ≤ j ∧ j < i + 1 + bs.length
    · rw [if_pos h1, if_pos (by omega), show j - i = j - (i + 1) + 1 by omega, List.getElem?_cons_succ]
    · rw [if_neg h1]
      by_cases h2 : j = i
      · subst h2
        simp
      · rw [if_neg h2, if_neg (by omega)]

/-- Bytes outside the written ones keep their values. -/
theorem read_writeAll_of_not (blank : Option Byte) (bs : List Byte) (m : Memory) (i j : Nat)
    (h : j < i ∨ i + bs.length ≤ j) :
    Memory.read blank (Memory.writeAll blank m i bs) j = Memory.read blank m j := by
  rw [read_writeAll, if_neg (by omega)]

/-- FB always reads a byte. -/
theorem read_fb (m : Memory) (i : Nat) :
    Memory.read Buf.fb.blank m i = some ((Memory.cellAt m i).getD 0) := rfl

/-! ### The canonical form -/

theorem mem_put (m : Memory) (i : Nat) (b : Byte) (c : Host.Cell) (h : c ∈ Memory.put m i b) :
    c = (i, b) ∨ c ∈ m := by
  induction m with
  | nil => simpa [Memory.put] using h
  | cons d rest ih =>
    obtain ⟨k, v⟩ := d
    unfold Memory.put at h
    split_ifs at h
    · simpa using h
    · simp only [List.mem_cons] at h ⊢
      tauto
    · simp only [List.mem_cons] at h ⊢
      rcases h with h | h
      · exact .inr (.inl h)
      · rcases ih h with h | h
        · exact .inl h
        · exact .inr (.inr h)

theorem rising_put (m : Memory) (i : Nat) (b : Byte) (h : m.Pairwise (fun c d => c.1 < d.1)) :
    (Memory.put m i b).Pairwise (fun c d => c.1 < d.1) := by
  induction m with
  | nil => simp [Memory.put]
  | cons d rest ih =>
    obtain ⟨k, v⟩ := d
    rw [List.pairwise_cons] at h
    unfold Memory.put
    split_ifs with h1 h2
    · refine List.pairwise_cons.2 ⟨fun c hc => ?_, List.pairwise_cons.2 h⟩
      rcases List.mem_cons.1 hc with rfl | hc
      · exact h1
      · exact Nat.lt_trans h1 (h.1 c hc)
    · subst h2
      exact List.pairwise_cons.2 h
    · refine List.pairwise_cons.2 ⟨fun c hc => ?_, ih h.2⟩
      rcases mem_put _ _ _ _ hc with rfl | hc
      · show k < i
        omega
      · exact h.1 c hc

/-- A write inside the capacity keeps the canonical form. -/
theorem wf_write (blank : Option Byte) (cap : Nat) (m : Memory) (i : Nat) (b : Byte) (hi : i < cap)
    (h : Memory.wf blank cap m) : Memory.wf blank cap (Memory.write blank m i b) := by
  unfold Memory.write
  split
  · exact ⟨h.1.filter _, fun c hc => h.2 c (List.mem_of_mem_filter hc)⟩
  · rename_i hb
    refine ⟨rising_put _ _ _ h.1, fun c hc => ?_⟩
    rcases mem_put _ _ _ _ hc with rfl | hc
    · exact ⟨hb, hi⟩
    · exact h.2 c hc

/-- Writes inside the capacity keep the canonical form. -/
theorem wf_writeAll (blank : Option Byte) (cap : Nat) (bs : List Byte) (m : Memory) (i : Nat)
    (hi : i + bs.length ≤ cap) (h : Memory.wf blank cap m) :
    Memory.wf blank cap (Memory.writeAll blank m i bs) := by
  induction bs generalizing m i with
  | nil => exact h
  | cons b bs ih =>
    rw [List.length_cons] at hi
    exact ih _ _ (by omega) (wf_write _ _ _ _ _ (by omega) h)

theorem wf_nil (blank : Option Byte) (cap : Nat) : Memory.wf blank cap [] :=
  ⟨List.Pairwise.nil, fun c hc => by simp at hc⟩

/-- The frame a reset puts into FB has the canonical form. -/
theorem wf_resetFrame (c : Config) (h : c.legal) : Memory.wf Buf.fb.blank c.cap (resetFrame c) :=
  wf_writeAll _ _ _ _ _ (by have := h.1; simp [addrField]; omega) (wf_nil _ _)

end Sys2Proof.Machine
end

