-- ==== Sys2Proof/Laws/State.lean ====
section
/-! SUPPORT. One lemma per field per update of State, each true by unfolding, so that no later proof unfolds an update. -/

namespace Sys2Proof.Machine

/-! ### `respond` -/

@[simp] theorem respond_cfg (s : State) (st : Status) (r : List Byte) : (s.respond st r).cfg = s.cfg := rfl
@[simp] theorem respond_fb (s : State) (st : Status) (r : List Byte) : (s.respond st r).fb = s.fb := rfl
@[simp] theorem respond_tx (s : State) (st : Status) (r : List Byte) : (s.respond st r).tx = s.tx := rfl
@[simp] theorem respond_addr (s : State) (st : Status) (r : List Byte) : (s.respond st r).addr = s.addr := rfl
@[simp] theorem respond_chidx (s : State) (st : Status) (r : List Byte) : (s.respond st r).chidx = s.chidx := rfl
@[simp] theorem respond_nameSet (s : State) (st : Status) (r : List Byte) : (s.respond st r).nameSet = s.nameSet := rfl
@[simp] theorem respond_nameLen (s : State) (st : Status) (r : List Byte) : (s.respond st r).nameLen = s.nameLen := rfl
@[simp] theorem respond_dataSet (s : State) (st : Status) (r : List Byte) : (s.respond st r).dataSet = s.dataSet := rfl
@[simp] theorem respond_dataLen (s : State) (st : Status) (r : List Byte) : (s.respond st r).dataLen = s.dataLen := rfl
@[simp] theorem respond_remain (s : State) (st : Status) (r : List Byte) : (s.respond st r).remain = s.remain := rfl
@[simp] theorem respond_inputs (s : State) (st : Status) (r : List Byte) : (s.respond st r).inputs = s.inputs := rfl
@[simp] theorem respond_responses (s : State) (st : Status) (r : List Byte) : (s.respond st r).responses = s.responses ++ [st.code :: r] := rfl
@[simp] theorem respond_radio (s : State) (st : Status) (r : List Byte) : (s.respond st r).radio = s.radio := rfl

/-! ### `raise` -/

@[simp] theorem raise_cfg (s : State) (st : Status) : (s.raise st).cfg = s.cfg := rfl
@[simp] theorem raise_fb (s : State) (st : Status) : (s.raise st).fb = s.fb := rfl
@[simp] theorem raise_tx (s : State) (st : Status) : (s.raise st).tx = s.tx := rfl
@[simp] theorem raise_addr (s : State) (st : Status) : (s.raise st).addr = s.addr := rfl
@[simp] theorem raise_chidx (s : State) (st : Status) : (s.raise st).chidx = s.chidx := rfl
@[simp] theorem raise_nameSet (s : State) (st : Status) : (s.raise st).nameSet = s.nameSet := rfl
@[simp] theorem raise_nameLen (s : State) (st : Status) : (s.raise st).nameLen = s.nameLen := rfl
@[simp] theorem raise_dataSet (s : State) (st : Status) : (s.raise st).dataSet = s.dataSet := rfl
@[simp] theorem raise_dataLen (s : State) (st : Status) : (s.raise st).dataLen = s.dataLen := rfl
@[simp] theorem raise_remain (s : State) (st : Status) : (s.raise st).remain = s.remain := rfl
@[simp] theorem raise_inputs (s : State) (st : Status) : (s.raise st).inputs = s.inputs := rfl
@[simp] theorem raise_responses (s : State) (st : Status) : (s.raise st).responses = s.responses ++ [[st.code]] := rfl
@[simp] theorem raise_radio (s : State) (st : Status) : (s.raise st).radio = s.radio := rfl

/-! ### `hop` -/

@[simp] theorem hop_cfg (s : State) : (s.hop).cfg = s.cfg := rfl
@[simp] theorem hop_fb (s : State) : (s.hop).fb = s.fb := rfl
@[simp] theorem hop_tx (s : State) : (s.hop).tx = s.tx := rfl
@[simp] theorem hop_addr (s : State) : (s.hop).addr = s.addr := rfl
@[simp] theorem hop_chidx (s : State) : (s.hop).chidx = nextIdx s.chidx := rfl
@[simp] theorem hop_nameSet (s : State) : (s.hop).nameSet = s.nameSet := rfl
@[simp] theorem hop_nameLen (s : State) : (s.hop).nameLen = s.nameLen := rfl
@[simp] theorem hop_dataSet (s : State) : (s.hop).dataSet = s.dataSet := rfl
@[simp] theorem hop_dataLen (s : State) : (s.hop).dataLen = s.dataLen := rfl
@[simp] theorem hop_remain (s : State) : (s.hop).remain = s.remain := rfl
@[simp] theorem hop_inputs (s : State) : (s.hop).inputs = s.inputs := rfl
@[simp] theorem hop_responses (s : State) : (s.hop).responses = s.responses := rfl
@[simp] theorem hop_radio (s : State) : (s.hop).radio = s.radio := rfl

/-! ### `call` -/

@[simp] theorem call_cfg (s : State) (cs : List RadioCall) : (s.call cs).cfg = s.cfg := rfl
@[simp] theorem call_fb (s : State) (cs : List RadioCall) : (s.call cs).fb = s.fb := rfl
@[simp] theorem call_tx (s : State) (cs : List RadioCall) : (s.call cs).tx = s.tx := rfl
@[simp] theorem call_addr (s : State) (cs : List RadioCall) : (s.call cs).addr = s.addr := rfl
@[simp] theorem call_chidx (s : State) (cs : List RadioCall) : (s.call cs).chidx = s.chidx := rfl
@[simp] theorem call_nameSet (s : State) (cs : List RadioCall) : (s.call cs).nameSet = s.nameSet := rfl
@[simp] theorem call_nameLen (s : State) (cs : List RadioCall) : (s.call cs).nameLen = s.nameLen := rfl
@[simp] theorem call_dataSet (s : State) (cs : List RadioCall) : (s.call cs).dataSet = s.dataSet := rfl
@[simp] theorem call_dataLen (s : State) (cs : List RadioCall) : (s.call cs).dataLen = s.dataLen := rfl
@[simp] theorem call_remain (s : State) (cs : List RadioCall) : (s.call cs).remain = s.remain := rfl
@[simp] theorem call_inputs (s : State) (cs : List RadioCall) : (s.call cs).inputs = s.inputs := rfl
@[simp] theorem call_responses (s : State) (cs : List RadioCall) : (s.call cs).responses = s.responses := rfl
@[simp] theorem call_radio (s : State) (cs : List RadioCall) : (s.call cs).radio = s.radio ++ cs := rfl

/-! ### `withInputs` -/

@[simp] theorem withInputs_cfg (s : State) (q : List HostInput) : (s.withInputs q).cfg = s.cfg := rfl
@[simp] theorem withInputs_fb (s : State) (q : List HostInput) : (s.withInputs q).fb = s.fb := rfl
@[simp] theorem withInputs_tx (s : State) (q : List HostInput) : (s.withInputs q).tx = s.tx := rfl
@[simp] theorem withInputs_addr (s : State) (q : List HostInput) : (s.withInputs q).addr = s.addr := rfl
@[simp] theorem withInputs_chidx (s : State) (q : List HostInput) : (s.withInputs q).chidx = s.chidx := rfl
@[simp] theorem withInputs_nameSet (s : State) (q : List HostInput) : (s.withInputs q).nameSet = s.nameSet := rfl
@[simp] theorem withInputs_nameLen (s : State) (q : List HostInput) : (s.withInputs q).nameLen = s.nameLen := rfl
@[simp] theorem withInputs_dataSet (s : State) (q : List HostInput) : (s.withInputs q).dataSet = s.dataSet := rfl
@[simp] theorem withInputs_dataLen (s : State) (q : List HostInput) : (s.withInputs q).dataLen = s.dataLen := rfl
@[simp] theorem withInputs_remain (s : State) (q : List HostInput) : (s.withInputs q).remain = s.remain := rfl
@[simp] theorem withInputs_inputs (s : State) (q : List HostInput) : (s.withInputs q).inputs = q := rfl
@[simp] theorem withInputs_responses (s : State) (q : List HostInput) : (s.withInputs q).responses = s.responses := rfl
@[simp] theorem withInputs_radio (s : State) (q : List HostInput) : (s.withInputs q).radio = s.radio := rfl

/-! ### `setFb` -/

@[simp] theorem setFb_cfg (s : State) (m : Memory) : (s.setMem .fb m).cfg = s.cfg := rfl
@[simp] theorem setFb_fb (s : State) (m : Memory) : (s.setMem .fb m).fb = m := rfl
@[simp] theorem setFb_tx (s : State) (m : Memory) : (s.setMem .fb m).tx = s.tx := rfl
@[simp] theorem setFb_addr (s : State) (m : Memory) : (s.setMem .fb m).addr = s.addr := rfl
@[simp] theorem setFb_chidx (s : State) (m : Memory) : (s.setMem .fb m).chidx = s.chidx := rfl
@[simp] theorem setFb_nameSet (s : State) (m : Memory) : (s.setMem .fb m).nameSet = s.nameSet := rfl
@[simp] theorem setFb_nameLen (s : State) (m : Memory) : (s.setMem .fb m).nameLen = s.nameLen := rfl
@[simp] theorem setFb_dataSet (s : State) (m : Memory) : (s.setMem .fb m).dataSet = s.dataSet := rfl
@[simp] theorem setFb_dataLen (s : State) (m : Memory) : (s.setMem .fb m).dataLen = s.dataLen := rfl
@[simp] theorem setFb_remain (s : State) (m : Memory) : (s.setMem .fb m).remain = s.remain := rfl
@[simp] theorem setFb_inputs (s : State) (m : Memory) : (s.setMem .fb m).inputs = s.inputs := rfl
@[simp] theorem setFb_responses (s : State) (m : Memory) : (s.setMem .fb m).responses = s.responses := rfl
@[simp] theorem setFb_radio (s : State) (m : Memory) : (s.setMem .fb m).radio = s.radio := rfl

/-! ### `setTx` -/

@[simp] theorem setTx_cfg (s : State) (m : Memory) : (s.setMem .tx m).cfg = s.cfg := rfl
@[simp] theorem setTx_fb (s : State) (m : Memory) : (s.setMem .tx m).fb = s.fb := rfl
@[simp] theorem setTx_tx (s : State) (m : Memory) : (s.setMem .tx m).tx = m := rfl
@[simp] theorem setTx_addr (s : State) (m : Memory) : (s.setMem .tx m).addr = s.addr := rfl
@[simp] theorem setTx_chidx (s : State) (m : Memory) : (s.setMem .tx m).chidx = s.chidx := rfl
@[simp] theorem setTx_nameSet (s : State) (m : Memory) : (s.setMem .tx m).nameSet = s.nameSet := rfl
@[simp] theorem setTx_nameLen (s : State) (m : Memory) : (s.setMem .tx m).nameLen = s.nameLen := rfl
@[simp] theorem setTx_dataSet (s : State) (m : Memory) : (s.setMem .tx m).dataSet = s.dataSet := rfl
@[simp] theorem setTx_dataLen (s : State) (m : Memory) : (s.setMem .tx m).dataLen = s.dataLen := rfl
@[simp] theorem setTx_remain (s : State) (m : Memory) : (s.setMem .tx m).remain = s.remain := rfl
@[simp] theorem setTx_inputs (s : State) (m : Memory) : (s.setMem .tx m).inputs = s.inputs := rfl
@[simp] theorem setTx_responses (s : State) (m : Memory) : (s.setMem .tx m).responses = s.responses := rfl
@[simp] theorem setTx_radio (s : State) (m : Memory) : (s.setMem .tx m).radio = s.radio := rfl

/-! ### `applyReset` -/

@[simp] theorem applyReset_cfg (s : State) : (s.applyReset).cfg = s.cfg := rfl
@[simp] theorem applyReset_fb (s : State) : (s.applyReset).fb = resetFrame s.cfg := rfl
@[simp] theorem applyReset_tx (s : State) : (s.applyReset).tx = [] := rfl
@[simp] theorem applyReset_addr (s : State) : (s.applyReset).addr = s.cfg.addrReset := rfl
@[simp] theorem applyReset_chidx (s : State) : (s.applyReset).chidx = 0 := rfl
@[simp] theorem applyReset_nameSet (s : State) : (s.applyReset).nameSet = false := rfl
@[simp] theorem applyReset_nameLen (s : State) : (s.applyReset).nameLen = 0 := rfl
@[simp] theorem applyReset_dataSet (s : State) : (s.applyReset).dataSet = false := rfl
@[simp] theorem applyReset_dataLen (s : State) : (s.applyReset).dataLen = 0 := rfl
@[simp] theorem applyReset_remain (s : State) : (s.applyReset).remain = 0 := rfl
@[simp] theorem applyReset_inputs (s : State) : (s.applyReset).inputs = s.inputs := rfl
@[simp] theorem applyReset_responses (s : State) : (s.applyReset).responses = s.responses := rfl
@[simp] theorem applyReset_radio (s : State) : (s.applyReset).radio = s.radio := rfl

@[simp] theorem mem_fb (s : State) : s.mem .fb = s.fb := rfl
@[simp] theorem mem_tx (s : State) : s.mem .tx = s.tx := rfl

@[simp] theorem setMem_cfg (s : State) (b : Buf) (m : Memory) : (s.setMem b m).cfg = s.cfg := by cases b <;> rfl
@[simp] theorem setMem_mem (s : State) (b : Buf) (m : Memory) : (s.setMem b m).mem b = m := by cases b <;> rfl
@[simp] theorem setMem_setMem (s : State) (b : Buf) (m n : Memory) : (s.setMem b m).setMem b n = s.setMem b n := by
  cases b <;> rfl
@[simp] theorem setMem_self (s : State) (b : Buf) : s.setMem b (s.mem b) = s := by cases b <;> rfl

end Sys2Proof.Machine
end

