-- ==== Sys2Proof/Laws/Ops.lean ====
section
/-! SUPPORT. One spec lemma per shared operation: what it answers, in which states, and nothing else it can do. -/

namespace Sys2Proof.Machine

/-! ### Byte accesses -/

/-- A multi-byte write inside the capacity succeeds and writes exactly its bytes (R57). -/
theorem memWrite_eq (b : Buf) (vs : List Byte) (i : Nat) (s : State) (h : i + vs.length ≤ s.cfg.cap) :
    memWrite b i vs s = .ok (s.setMem b (Memory.writeAll b.blank (s.mem b) i vs)) := by
  induction vs generalizing i s with
  | nil => simp [memWrite, Memory.writeAll]
  | cons v vs ih =>
    rw [List.length_cons] at h
    simp only [memWrite, writeByte, if_pos (show i < s.cfg.cap by omega), bind, Except.bind]
    rw [ih _ _ (by rw [setMem_cfg]; omega)]
    simp [Memory.writeAll]

/-- Everything a multi-byte write can do: write its bytes, or fault on an index (R57). It never raises. -/
theorem memWrite_cases (b : Buf) (vs : List Byte) (i : Nat) (s : State) :
    memWrite b i vs s = .ok (s.setMem b (Memory.writeAll b.blank (s.mem b) i vs)) ∨
      ∃ j, memWrite b i vs s = .error (.fault (.bufferIndex b j)) ∧ s.cfg.cap ≤ j ∧ j < i + vs.length := by
  induction vs generalizing i s with
  | nil => simp [memWrite, Memory.writeAll]
  | cons v vs ih =>
    by_cases hi : i < s.cfg.cap
    · simp only [memWrite, writeByte, if_pos hi, bind, Except.bind]
      rcases ih (i + 1) (s.setMem b (Memory.write b.blank (s.mem b) i v)) with h | ⟨j, h, h1, h2⟩
      · left
        rw [h]
        simp [Memory.writeAll]
      · right
        rw [setMem_cfg] at h1
        exact ⟨j, h, h1, by rw [List.length_cons]; omega⟩
    · right
      exact ⟨i, by simp only [memWrite, writeByte, if_neg hi, bind, Except.bind], by omega, by simp⟩

/-- A multi-byte write that succeeds stood inside the capacity (R57). -/
theorem memWrite_bound (b : Buf) (vs : List Byte) (i : Nat) (s t : State) (h : memWrite b i vs s = .ok t) :
    vs = [] ∨ i + vs.length ≤ s.cfg.cap := by
  induction vs generalizing i s with
  | nil => exact .inl rfl
  | cons v vs ih =>
    right
    rw [List.length_cons]
    by_cases hi : i < s.cfg.cap
    · simp only [memWrite, writeByte, if_pos hi, bind, Except.bind] at h
      rcases ih _ _ h with rfl | hv
      · simp only [List.length_nil]
        omega
      · rw [setMem_cfg] at hv
        omega
    · simp only [memWrite, writeByte, if_neg hi, bind, Except.bind] at h
      cases h

/-- A multi-byte read inside the capacity gives the bytes that stand there. -/
theorem memRead_eq (b : Buf) (vs : List Byte) (i : Nat) (s : State) (hc : i + vs.length ≤ s.cfg.cap)
    (hv : ∀ k, k < vs.length → s.byteAt b (i + k) = vs[k]?) : memRead b i vs.length s = .ok vs := by
  induction vs generalizing i with
  | nil => rfl
  | cons v vs ih =>
    rw [List.length_cons] at hc hv ⊢
    have h0 : s.byteAt b i = some v := by simpa using hv 0 (by omega)
    have hs := ih (i + 1) (by omega) (fun k hk => by
      have := hv (k + 1) (by omega)
      rwa [List.getElem?_cons_succ, show i + (k + 1) = i + 1 + k by omega] at this)
    simp only [memRead, readByte, if_pos (show i < s.cfg.cap by omega), h0, bind, Except.bind, hs]

/-- The byte FB holds at an index. -/
theorem byteAt_fb (s : State) (i : Nat) : s.byteAt .fb i = some ((Memory.cellAt s.fb i).getD 0) := rfl

/-- Reading the frame buffer never faults inside the capacity. -/
theorem memRead_fb (i n : Nat) (s : State) (h : i + n ≤ s.cfg.cap) :
    memRead .fb i n s = .ok ((List.range n).map fun k => (Memory.cellAt s.fb (i + k)).getD 0) := by
  have := memRead_eq .fb ((List.range n).map fun k => (Memory.cellAt s.fb (i + k)).getD 0) i s (by simpa using h)
    (fun k hk => by
      rw [List.length_map, List.length_range] at hk
      simp [byteAt_fb, hk])
  simpa using this

/-- What was just written to TX is read back. -/
theorem memRead_tx_written (vs : List Byte) (m : Memory) (s : State) (h : vs.length ≤ s.cfg.cap) :
    memRead .tx 0 vs.length (s.setMem .tx (Memory.writeAll Buf.tx.blank m 0 vs)) = .ok vs := by
  refine memRead_eq .tx vs 0 _ (by simpa using h) (fun k hk => ?_)
  rw [State.byteAt, setMem_mem, read_writeAll, if_pos (by omega)]
  simp

/-! ### Procedures of the frame builder -/

/-- `setAddress` (R180) always succeeds: the register and the frame's copy. -/
theorem setAddress_eq (a : DevAddr) (s : State) (h : 8 ≤ s.cfg.cap) :
    setAddress a s = .ok { s with addr := a, fb := Memory.writeAll Buf.fb.blank s.fb 2 (addrField a) } := by
  rw [setAddress, memWrite_eq _ _ _ _ (by simpa [addrField] using h)]
  rfl

/-- The bytes SETNAME writes from index 11 to the end of the buffer (R181). -/
def nameBytes (cap : Nat) (t : List Byte) : List Byte :=
  adStructure adName t ++ List.replicate (cap - (13 + t.length)) 0x00

theorem nameBytes_length (cap : Nat) (t : List Byte) (h : 13 + t.length ≤ cap) :
    (nameBytes cap t).length = cap - 11 := by
  simp only [nameBytes, adStructure, List.length_append, List.length_cons, List.length_replicate]
  omega

theorem writeAll_append (blank : Option Byte) (xs ys : List Byte) (m : Memory) (i : Nat) :
    Memory.writeAll blank m i (xs ++ ys) = Memory.writeAll blank (Memory.writeAll blank m i xs) (i + xs.length) ys := by
  induction xs generalizing m i with
  | nil => rfl
  | cons x xs ih =>
    rw [List.cons_append, Memory.writeAll, ih, Memory.writeAll, List.length_cons, show i + 1 + xs.length = i + (xs.length + 1) by omega]

/-- `setName` accepted (R181). -/
theorem setName_accepted (t : List Byte) (s : State) (h : t.length + 16 ≤ s.cfg.cap) :
    setName t s = .ok { s with
      fb := Memory.writeAll Buf.fb.blank s.fb 11 (nameBytes s.cfg.cap t)
      nameSet := true
      nameLen := t.length
      dataSet := false
      dataLen := 0
      remain := s.cfg.cap - 16 - t.length } := by
  have hl : (adStructure adName t).length = t.length + 2 := by simp [adStructure]
  have h0 : nameTooLong s t.length = false := decide_eq_false (by omega)
  simp only [setName, h0, Bool.false_eq_true, if_false, nameStart, bind, Except.bind]
  rw [memWrite_eq _ _ _ _ (by omega)]
  simp only []
  rw [memWrite_eq _ _ _ _ (by simp; omega)]
  simp only [nameBytes, writeAll_append, hl, show 11 + (t.length + 2) = 13 + t.length by omega]
  rfl

/-- `setName` declined (R181): nothing written. -/
theorem setName_declined (t : List Byte) (s : State) (h : s.cfg.cap < t.length + 16) :
    setName t s = .error (.raised .capacityExceeded) := by
  have h0 : nameTooLong s t.length = true := decide_eq_true h
  simp [setName, h0]

/-- `setData` accepted (R182). -/
theorem setData_accepted (x : List Byte) (s : State) (hn : s.nameSet = true) (hd : x.length ≤ s.remain)
    (hc : 15 + s.nameLen + x.length ≤ s.cfg.cap) :
    setData x s = .ok { s with
      fb := Memory.writeAll Buf.fb.blank s.fb (13 + s.nameLen) (adStructure adData x)
      dataSet := true
      dataLen := x.length } := by
  have h0 : dataTooLong s x.length = false := decide_eq_false (by omega)
  rw [setData, if_pos hn, h0]
  simp only [Bool.false_eq_true, if_false, dataStart, bind, Except.bind]
  rw [memWrite_eq _ _ _ _ (by simp [adStructure]; omega)]
  rfl

/-- `setData` before a name (R182). -/
theorem setData_noName (x : List Byte) (s : State) (hn : s.nameSet = false) :
    setData x s = .error (.raised .preconditionViolated) := by
  simp [setData, hn]

/-- `setData` beyond the remaining capacity (R182). -/
theorem setData_tooLong (x : List Byte) (s : State) (hn : s.nameSet = true) (hd : s.remain < x.length) :
    setData x s = .error (.raised .capacityExceeded) := by
  have h0 : dataTooLong s x.length = true := decide_eq_true hd
  simp [setData, hn, h0]

/-! ### The encoder -/

theorem whiten_length (d : List Byte) (w : Byte) : (whiten d w).length = d.length := by
  induction d generalizing w with
  | nil => rfl
  | cons b d ih => simp [whiten, ih]

theorem encodeParts_length (body : List Byte) (a : Acc) (ch : Byte) :
    (encodeParts body a ch).length = body.length + 3 := by
  simp [encodeParts, whiten_length, Acc.bytes]

theorem splitPacket_append (body : List Byte) (c0 c1 c2 : Byte) :
    splitPacket (body ++ [c0, c1, c2]) = some (body, ⟨c0, c1, c2⟩) := by
  simp [splitPacket]

theorem splitPacket_short (p : List Byte) (h : p.length < 3) : splitPacket p = none := by
  match p, h with
  | [], _ => rfl
  | [_], _ => rfl
  | [_, _], _ => rfl

/-- A packet of three bytes or more is its first bytes and its last three. -/
theorem exists_split (p : List Byte) (h : 3 ≤ p.length) : ∃ body c0 c1 c2, p = body ++ [c0, c1, c2] := by
  have hl : (p.drop (p.length - 3)).length = 3 := by rw [List.length_drop]; omega
  match hd : p.drop (p.length - 3), hl with
  | [c0, c1, c2], _ => exact ⟨p.take (p.length - 3), c0, c1, c2, by rw [← hd, List.take_append_drop]⟩

theorem encodePacket_append (body : List Byte) (c0 c1 c2 ch : Byte) :
    encodePacket (body ++ [c0, c1, c2]) ch = some (encodeParts body ⟨c0, c1, c2⟩ ch) := by
  simp [encodePacket, splitPacket_append]

/-! ### The transmission -/

/-- FB after step 1 of a transmission (R210): the length byte and the placeholder. -/
def framedFb (s : State) : Memory :=
  Memory.writeAll Buf.fb.blank (Memory.writeAll Buf.fb.blank s.fb 1 [lenByte (currentLength s)])
    (2 + currentLength s) crcPlaceholder

/-- The payload-and-header bytes of the frame a transmission copies (R210 step 2), without the placeholder. -/
def framedBody (s : State) : List Byte :=
  (List.range (2 + currentLength s)).map fun k => (Memory.cellAt (framedFb s) k).getD 0

/-- The bytes a transmission sends (R210 step 4). -/
def codedFrame (s : State) : List Byte := encodeParts (framedBody s) ⟨0x55, 0x55, 0x55⟩ (chNum s.chidx)

/-- TX after a transmission (R210 steps 2 and 4). -/
def codedTx (s : State) : Memory :=
  Memory.writeAll Buf.tx.blank (Memory.writeAll Buf.tx.blank s.tx 0 (framedBody s ++ crcPlaceholder)) 0 (codedFrame s)

theorem framedBody_length (s : State) : (framedBody s).length = 2 + currentLength s := by simp [framedBody]

theorem codedFrame_length (s : State) : (codedFrame s).length = totalLen s := by
  rw [codedFrame, encodeParts_length, framedBody_length, totalLen]

/-- The frame copied to TX ends in the placeholder. -/
theorem framed_range (s : State) :
    ((List.range (totalLen s)).map fun k => (Memory.cellAt (framedFb s) (0 + k)).getD 0) =
      framedBody s ++ crcPlaceholder := by
  have hcell : ∀ t, t < 3 → (Memory.cellAt (framedFb s) (2 + currentLength s + t)).getD 0 = (0x55 : Byte) := by
    intro t ht
    have h : Memory.read Buf.fb.blank (framedFb s) (2 + currentLength s + t) = crcPlaceholder[t]? := by
      rw [framedFb, read_writeAll, if_pos (by simp [crcPlaceholder]; omega)]
      simp
    rw [read_fb] at h
    match t, ht with
    | 0, _ | 1, _ | 2, _ => exact Option.some.inj h
  have h1 := hcell 1 (by omega)
  have h2 := hcell 2 (by omega)
  rw [totalLen, List.range_add]
  simp only [List.map_append, framedBody, Nat.zero_add]
  congr 1
  have h3 : (List.range 3).map (fun t => (Memory.cellAt (framedFb s) (2 + currentLength s + t)).getD 0) =
      crcPlaceholder := by
    rw [show List.range 3 = [0, 1, 2] from rfl, List.map, List.map, List.map, hcell 0 (by omega), h1, h2]
    rfl
  rw [List.map_map]
  exact h3

/-- `transmitOnce` on a frame that fits (R210): everything it does. -/
theorem transmitOnce_fits (s : State) (h : totalLen s ≤ s.cfg.cap) :
    transmitOnce s = .ok { s with
      fb := framedFb s
      tx := codedTx s
      chidx := nextIdx s.chidx
      radio := s.radio ++ radioCalls s.cfg (chFreq s.chidx) (codedFrame s) } := by
  have hf : frameTooLong s = false := decide_eq_false (by omega)
  have ht : totalLen s = 2 + currentLength s + 3 := rfl
  simp only [transmitOnce, hf, Bool.false_eq_true, if_false, bind, Except.bind]
  rw [memWrite_eq _ _ _ _ (by simp; omega)]
  simp only []
  rw [memWrite_eq _ _ _ _ (by simp [crcPlaceholder]; omega)]
  simp only [setMem_setMem, mem_fb, setFb_fb]
  rw [show Memory.writeAll Buf.fb.blank (Memory.writeAll Buf.fb.blank s.fb 1 [lenByte (currentLength s)])
    (2 + currentLength s) crcPlaceholder = framedFb s from rfl]
  rw [memRead_fb _ _ _ (by simpa using h)]
  simp only [setFb_fb, framed_range]
  rw [memWrite_eq _ _ _ _ (by simp [framedBody_length, crcPlaceholder]; omega)]
  simp only []
  have hl : (framedBody s ++ crcPlaceholder).length = totalLen s := by
    simp [framedBody_length, crcPlaceholder, totalLen]
  have hr := memRead_tx_written (framedBody s ++ crcPlaceholder) s.tx ((s.setMem .fb (framedFb s)).hop)
    (by rw [hl]; simpa using h)
  rw [hl] at hr
  rw [show (State.setMem (State.setMem s Buf.fb (framedFb s)) Buf.tx
      (Memory.writeAll Buf.tx.blank ((State.setMem s Buf.fb (framedFb s)).mem Buf.tx) 0 (framedBody s ++ crcPlaceholder))).hop
    = ((s.setMem .fb (framedFb s)).hop).setMem .tx (Memory.writeAll Buf.tx.blank s.tx 0 (framedBody s ++ crcPlaceholder))
    from rfl, hr]
  simp only [setTx_chidx, setFb_chidx]
  rw [show crcPlaceholder = [0x55, 0x55, 0x55] from rfl, encodePacket_append]
  simp only []
  rw [show encodeParts (framedBody s) ⟨0x55, 0x55, 0x55⟩ (chNum s.chidx) = codedFrame s from rfl]
  rw [memWrite_eq _ _ _ _ (by rw [codedFrame_length]; simpa using h)]
  simp only [setMem_mem, setMem_setMem]
  have hr2 := memRead_tx_written (codedFrame s) (Memory.writeAll Buf.tx.blank s.tx 0 (framedBody s ++ crcPlaceholder))
    ((s.setMem .fb (framedFb s)).hop) (by rw [codedFrame_length]; simpa using h)
  rw [codedFrame_length] at hr2
  rw [show ([0x55, 0x55, 0x55] : List Byte) = crcPlaceholder from rfl, hr2]
  rfl

/-- `transmitOnce` on a frame that does not fit (R213): nothing written. -/
theorem transmitOnce_overrun (s : State) (h : s.cfg.cap < totalLen s) :
    transmitOnce s = .error (.raised .frameOverrun) := by
  have hf : frameTooLong s = true := decide_eq_true h
  simp [transmitOnce, hf]

end Sys2Proof.Machine
end

