-- ==== Sys2Proof/Laws/Exec.lean ====
section
/-! SUPPORT. Everything an operation and a step can do when they answer a next state, said once. -/

namespace Sys2Proof.Machine

theorem setAddress_inv (a : DevAddr) (s t : State) (h : setAddress a s = .ok t) :
    t = { s with addr := a, fb := Memory.writeAll Buf.fb.blank s.fb 2 (addrField a) } := by
  unfold setAddress at h
  rcases memWrite_cases .fb (addrField a) 2 { s with addr := a } with h1 | ⟨j, h1, -, -⟩
  · rw [h1] at h
    exact (Except.ok.inj h).symm
  · rw [h1] at h
    cases h

theorem setAddress_error (a : DevAddr) (s : State) (e : Stop) (h : setAddress a s = .error e) : ∃ f, e = .fault f := by
  unfold setAddress at h
  rcases memWrite_cases .fb (addrField a) 2 { s with addr := a } with h1 | ⟨j, h1, -, -⟩
  · rw [h1] at h
    cases h
  · rw [h1] at h
    cases h
    exact ⟨_, rfl⟩

theorem setName_inv (t : List Byte) (s u : State) (h : setName t s = .ok u) :
    t.length + 16 ≤ s.cfg.cap ∧ u = { s with
      fb := Memory.writeAll Buf.fb.blank s.fb 11 (nameBytes s.cfg.cap t)
      nameSet := true
      nameLen := t.length
      dataSet := false
      dataLen := 0
      remain := s.cfg.cap - 16 - t.length } := by
  rcases Nat.lt_or_ge s.cfg.cap (t.length + 16) with hc | hc
  · rw [setName_declined t s hc] at h
    cases h
  · rw [setName_accepted t s hc] at h
    exact ⟨hc, (Except.ok.inj h).symm⟩

theorem setName_error (t : List Byte) (s : State) (e : Stop) (h : setName t s = .error e) :
    e = .raised .capacityExceeded ∧ s.cfg.cap < t.length + 16 := by
  rcases Nat.lt_or_ge s.cfg.cap (t.length + 16) with hc | hc
  · rw [setName_declined t s hc] at h
    cases h
    exact ⟨rfl, hc⟩
  · rw [setName_accepted t s hc] at h
    cases h

/-- Everything `setData` can do (R182): accept, decline one of two ways, or fault on an index. -/
theorem setData_cases (x : List Byte) (s : State) :
    (s.nameSet = true ∧ x.length ≤ s.remain ∧ setData x s = .ok { s with
        fb := Memory.writeAll Buf.fb.blank s.fb (13 + s.nameLen) (adStructure adData x)
        dataSet := true
        dataLen := x.length }) ∨
      (s.nameSet = false ∧ setData x s = .error (.raised .preconditionViolated)) ∨
      (s.nameSet = true ∧ s.remain < x.length ∧ setData x s = .error (.raised .capacityExceeded)) ∨
      ∃ f, setData x s = .error (.fault f) := by
  cases hn : s.nameSet
  · exact .inr (.inl ⟨rfl, setData_noName x s hn⟩)
  rcases Nat.lt_or_ge s.remain x.length with hd | hd
  · exact .inr (.inr (.inl ⟨rfl, hd, setData_tooLong x s hn hd⟩))
  · have h0 : dataTooLong s x.length = false := decide_eq_false (by omega)
    rw [setData, if_pos hn, h0]
    simp only [Bool.false_eq_true, if_false, dataStart, bind, Except.bind]
    rcases memWrite_cases .fb (adStructure adData x) (13 + s.nameLen) s with h1 | ⟨j, h1, -, -⟩
    · left
      rw [h1]
      refine ⟨trivial, hd, ?_⟩
      rw [← hn]
      rfl
    · right; right; right
      rw [h1]
      exact ⟨_, rfl⟩

/-- What `setData` answers when it succeeds. -/
def dataWritten (x : List Byte) (s : State) : State :=
  { s with
    fb := Memory.writeAll Buf.fb.blank s.fb (13 + s.nameLen) (adStructure adData x)
    dataSet := true
    dataLen := x.length }

@[simp] theorem dataWritten_cfg (x : List Byte) (s : State) : (dataWritten x s).cfg = s.cfg := rfl
@[simp] theorem dataWritten_fb (x : List Byte) (s : State) : (dataWritten x s).fb = Memory.writeAll Buf.fb.blank s.fb (13 + s.nameLen) (adStructure adData x) := rfl
@[simp] theorem dataWritten_tx (x : List Byte) (s : State) : (dataWritten x s).tx = s.tx := rfl
@[simp] theorem dataWritten_addr (x : List Byte) (s : State) : (dataWritten x s).addr = s.addr := rfl
@[simp] theorem dataWritten_chidx (x : List Byte) (s : State) : (dataWritten x s).chidx = s.chidx := rfl
@[simp] theorem dataWritten_nameSet (x : List Byte) (s : State) : (dataWritten x s).nameSet = s.nameSet := rfl
@[simp] theorem dataWritten_nameLen (x : List Byte) (s : State) : (dataWritten x s).nameLen = s.nameLen := rfl
@[simp] theorem dataWritten_dataSet (x : List Byte) (s : State) : (dataWritten x s).dataSet = true := rfl
@[simp] theorem dataWritten_dataLen (x : List Byte) (s : State) : (dataWritten x s).dataLen = x.length := rfl
@[simp] theorem dataWritten_remain (x : List Byte) (s : State) : (dataWritten x s).remain = s.remain := rfl
@[simp] theorem dataWritten_inputs (x : List Byte) (s : State) : (dataWritten x s).inputs = s.inputs := rfl
@[simp] theorem dataWritten_responses (x : List Byte) (s : State) : (dataWritten x s).responses = s.responses := rfl
@[simp] theorem dataWritten_radio (x : List Byte) (s : State) : (dataWritten x s).radio = s.radio := rfl

/-- What `transmitOnce` answers when it succeeds. -/
def transmitted (s : State) : State :=
  { s with
    fb := framedFb s
    tx := codedTx s
    chidx := nextIdx s.chidx
    radio := s.radio ++ radioCalls s.cfg (chFreq s.chidx) (codedFrame s) }

@[simp] theorem transmitted_cfg (s : State) : (transmitted s).cfg = s.cfg := rfl
@[simp] theorem transmitted_fb (s : State) : (transmitted s).fb = framedFb s := rfl
@[simp] theorem transmitted_tx (s : State) : (transmitted s).tx = codedTx s := rfl
@[simp] theorem transmitted_addr (s : State) : (transmitted s).addr = s.addr := rfl
@[simp] theorem transmitted_chidx (s : State) : (transmitted s).chidx = nextIdx s.chidx := rfl
@[simp] theorem transmitted_nameSet (s : State) : (transmitted s).nameSet = s.nameSet := rfl
@[simp] theorem transmitted_nameLen (s : State) : (transmitted s).nameLen = s.nameLen := rfl
@[simp] theorem transmitted_dataSet (s : State) : (transmitted s).dataSet = s.dataSet := rfl
@[simp] theorem transmitted_dataLen (s : State) : (transmitted s).dataLen = s.dataLen := rfl
@[simp] theorem transmitted_remain (s : State) : (transmitted s).remain = s.remain := rfl
@[simp] theorem transmitted_inputs (s : State) : (transmitted s).inputs = s.inputs := rfl
@[simp] theorem transmitted_responses (s : State) : (transmitted s).responses = s.responses := rfl
@[simp] theorem transmitted_radio (s : State) : (transmitted s).radio = s.radio ++ radioCalls s.cfg (chFreq s.chidx) (codedFrame s) := rfl

theorem transmitOnce_cases (s : State) :
    (totalLen s ≤ s.cfg.cap ∧ transmitOnce s = .ok (transmitted s)) ∨
      (s.cfg.cap < totalLen s ∧ transmitOnce s = .error (.raised .frameOverrun)) := by
  rcases Nat.lt_or_ge s.cfg.cap (totalLen s) with h | h
  · exact .inr ⟨h, transmitOnce_overrun s h⟩
  · exact .inl ⟨h, transmitOnce_fits s h⟩

/-- What an operation that answers a next state has done. -/
inductive Effect (s : State) : Instr → State → Prop
  /-- Result bytes and no effect on the state. -/
  | answered (i : Instr) (r : List Byte)
      (hi : (∃ b, i = .revb b) ∨ (∃ c, i = .wseed c) ∨ (∃ a b c d, i = .crc24 a b c d) ∨ (∃ k d, i = .whiten k d) ∨
        (∃ c p, i = .encode c p) ∨ i = .curlen) : Effect s i (s.respond .ok r)
  /-- A decline: a non-OK status and no effect on the state (R233). -/
  | declined (i : Instr) (st : Status) (hst : st ≠ .ok)
      (hi : (∃ c p, i = .encode c p ∧ p.length < 3 ∧ st = .badOperand) ∨
        (∃ t, i = .setname t ∧ s.cfg.cap < t.length + 16 ∧ st = .capacityExceeded) ∨
        (∃ x, (i = .setdata x ∨ i = .senddata x) ∧
          ((s.nameSet = false ∧ st = .preconditionViolated) ∨
            (s.nameSet = true ∧ s.remain < x.length ∧ st = .capacityExceeded))) ∨
        (i = .txonce ∧ s.cfg.cap < totalLen s ∧ st = .frameOverrun)) : Effect s i (s.raise st)
  /-- ADVANCE (R171). -/
  | advanced : Effect s .advance (s.hop.respond .ok [chNum s.chidx, chFreq s.chidx])
  /-- SETADDR (R180). -/
  | addressed (a : DevAddr) :
      Effect s (.setaddr a.a0 a.a1 a.a2 a.a3 a.a4 a.a5)
        (State.respond .ok [] { s with addr := a, fb := Memory.writeAll Buf.fb.blank s.fb 2 (addrField a) })
  /-- SETNAME accepted (R181). -/
  | named (t : List Byte) (h : t.length + 16 ≤ s.cfg.cap) :
      Effect s (.setname t) (State.respond .ok [lenByte (s.cfg.cap - 16 - t.length)] { s with
        fb := Memory.writeAll Buf.fb.blank s.fb 11 (nameBytes s.cfg.cap t)
        nameSet := true
        nameLen := t.length
        dataSet := false
        dataLen := 0
        remain := s.cfg.cap - 16 - t.length })
  /-- SETDATA accepted (R182). -/
  | dataSet (x : List Byte) (hn : s.nameSet = true) (hd : x.length ≤ s.remain) :
      Effect s (.setdata x) (State.respond .ok [] (dataWritten x s))
  /-- TXONCE accepted (R210). -/
  | sent (h : totalLen s ≤ s.cfg.cap) : Effect s .txonce (State.respond .ok [] (transmitted s))
  /-- SENDDATA accepted and transmitted (R211). -/
  | dataSent (x : List Byte) (hn : s.nameSet = true) (hd : x.length ≤ s.remain)
      (h : totalLen (dataWritten x s) ≤ s.cfg.cap) :
      Effect s (.senddata x) (State.respond .ok [] (transmitted (dataWritten x s)))
  /-- SENDDATA accepted, its transmission refused: the data field stays (R211, R233). -/
  | dataNotSent (x : List Byte) (hn : s.nameSet = true) (hd : x.length ≤ s.remain)
      (h : s.cfg.cap < totalLen (dataWritten x s)) :
      Effect s (.senddata x) (State.raise .frameOverrun (dataWritten x s))

/-- Everything an operation can do when it answers a next state. -/
theorem exec_effect (i : Instr) (s t : State) (h : exec i s = .next t) : Effect s i t := by
  cases i with
  | revb b =>
    cases h
    exact .answered _ _ (.inl ⟨_, rfl⟩)
  | wseed ch =>
    cases h
    exact .answered _ _ (.inr (.inl ⟨_, rfl⟩))
  | crc24 c0 c1 c2 data =>
    cases h
    exact .answered _ _ (.inr (.inr (.inl ⟨_, _, _, _, rfl⟩)))
  | whiten seed data =>
    cases h
    exact .answered _ _ (.inr (.inr (.inr (.inl ⟨_, _, rfl⟩))))
  | encode ch p =>
    rcases Nat.lt_or_ge p.length 3 with hp | hp
    · simp only [exec, execEncode, encodePacket, splitPacket_short p hp, stop] at h
      cases h
      exact .declined _ _ (by decide) (.inl ⟨_, _, rfl, hp, rfl⟩)
    · obtain ⟨body, c0, c1, c2, rfl⟩ := exists_split p hp
      simp only [exec, execEncode, encodePacket_append] at h
      cases h
      exact .answered _ _ (.inr (.inr (.inr (.inr (.inl ⟨_, _, rfl⟩)))))
  | advance =>
    cases h
    exact .advanced
  | setaddr a0 a1 a2 a3 a4 a5 =>
    simp only [exec, execSetaddr, finish] at h
    cases hs : setAddress ⟨a0, a1, a2, a3, a4, a5⟩ s with
    | ok u =>
      rw [hs] at h
      cases h
      rw [setAddress_inv _ _ _ hs]
      exact .addressed ⟨a0, a1, a2, a3, a4, a5⟩
    | error e =>
      rw [hs] at h
      obtain ⟨f, rfl⟩ := setAddress_error _ _ _ hs
      cases h
  | setname name =>
    simp only [exec, execSetname] at h
    cases hs : setName name s with
    | ok u =>
      rw [hs] at h
      cases h
      obtain ⟨hc, rfl⟩ := setName_inv _ _ _ hs
      exact .named name hc
    | error e =>
      rw [hs] at h
      obtain ⟨rfl, hc⟩ := setName_error _ _ _ hs
      cases h
      exact .declined _ _ (by decide) (.inr (.inl ⟨_, rfl, hc, rfl⟩))
  | setdata x =>
    simp only [exec, execSetdata] at h
    rcases setData_cases x s with ⟨hn, hd, hs⟩ | ⟨hn, hs⟩ | ⟨hn, hd, hs⟩ | ⟨f, hs⟩ <;> rw [hs] at h <;> cases h
    · exact .dataSet x hn hd
    · exact .declined _ _ (by decide) (.inr (.inr (.inl ⟨x, .inl rfl, .inl ⟨hn, rfl⟩⟩)))
    · exact .declined _ _ (by decide) (.inr (.inr (.inl ⟨x, .inl rfl, .inr ⟨hn, hd, rfl⟩⟩)))
  | curlen =>
    cases h
    exact .answered _ _ (.inr (.inr (.inr (.inr (.inr rfl)))))
  | txonce =>
    simp only [exec, execTxonce] at h
    rcases transmitOnce_cases s with ⟨hc, hs⟩ | ⟨hc, hs⟩ <;> rw [hs] at h <;> cases h
    · exact .sent hc
    · exact .declined _ _ (by decide) (.inr (.inr (.inr ⟨rfl, hc, rfl⟩)))
  | senddata x =>
    simp only [exec, execSenddata] at h
    rcases setData_cases x s with ⟨hn, hd, hs⟩ | ⟨hn, hs⟩ | ⟨hn, hd, hs⟩ | ⟨f, hs⟩ <;> rw [hs] at h
    · change finish (dataWritten x s) (transmitOnce (dataWritten x s)) = _ at h
      rcases transmitOnce_cases (dataWritten x s) with ⟨hc, ht⟩ | ⟨hc, ht⟩ <;> rw [ht] at h <;> cases h
      · exact .dataSent x hn hd hc
      · exact .dataNotSent x hn hd hc
    · cases h
      exact .declined _ _ (by decide) (.inr (.inr (.inl ⟨x, .inr rfl, .inl ⟨hn, rfl⟩⟩)))
    · cases h
      exact .declined _ _ (by decide) (.inr (.inr (.inl ⟨x, .inr rfl, .inr ⟨hn, hd, rfl⟩⟩)))
    · cases h

/-- Everything a step can do: stay idle, reset, run the decoded operation, or decline a frame that names none. -/
theorem step_cases (s : State) :
    (s.inputs = [] ∧ step s = .next s) ∨
      (∃ more, s.inputs = .rst :: more ∧ step s = .next (s.withInputs more).applyReset) ∨
      (∃ more, s.inputs = .send [] :: more ∧ step s = .next (s.withInputs more)) ∨
      (∃ bytes more i rest, s.inputs = .send bytes :: more ∧ decode bytes = .frame i rest ∧
        step s = exec i (s.withInputs (requeue rest more))) ∨
      (∃ bytes more op, s.inputs = .send bytes :: more ∧ decode bytes = .rejected (.reservedOpcode op) ∧
        step s = .next ((s.withInputs (requeue bytes.tail more)).raise .badOpcode)) ∨
      (∃ bytes more op, s.inputs = .send bytes :: more ∧ decode bytes = .rejected (.cutShort op) ∧
        step s = .next ((s.withInputs more).raise .badOperand)) := by
  unfold step fetch
  rcases s.inputs with _ | ⟨_ | _, more⟩
  · exact .inl ⟨rfl, rfl⟩
  · rename_i bytes
    rcases hd : decode bytes with ⟨i, rest⟩ | e
    rotate_left
    · rcases e with _ | op | op
      · have hb : bytes = [] := by
          cases bytes with
          | nil => rfl
          | cons op r =>
            exfalso
            rw [decode] at hd
            cases ho : operandsOf op with
            | none =>
              rw [ho] at hd
              simp at hd
            | some f =>
              rw [ho] at hd
              simp only [] at hd
              cases hf : f r with
              | none =>
                rw [hf] at hd
                simp at hd
              | some x =>
                rw [hf] at hd
                simp at hd
        subst hb
        exact .inr (.inr (.inl ⟨more, rfl, rfl⟩))
      · exact .inr (.inr (.inr (.inr (.inl ⟨bytes, more, op, rfl, hd, by simp only [hd]⟩))))
      · exact .inr (.inr (.inr (.inr (.inr ⟨bytes, more, op, rfl, hd, by simp only [hd]⟩))))
    · exact .inr (.inr (.inr (.inl ⟨bytes, more, i, rest, rfl, hd, by simp only [hd]⟩)))
  · exact .inr (.inl ⟨more, rfl, rfl⟩)

end Sys2Proof.Machine
end

