-- ==== Sys2Proof/Laws/PerInstr.lean ====
section
/-! SUPPORT. The family `FrameShape`: the shape of every operation's command frame (30_encoding.md rule R71). -/

namespace Sys2Proof.Laws.FrameShape

/-- The bytes of the frame by its format: 1, 2, 7, 2 + len, 3 + len or 5 + len (R71). -/
def frameLength : Instr → Nat
  | .revb _ => 2
  | .wseed _ => 2
  | .crc24 _ _ _ data => 5 + data.length
  | .whiten _ data => 3 + data.length
  | .encode _ packet => 3 + packet.length
  | .advance => 1
  | .setaddr _ _ _ _ _ _ => 7
  | .setname name => 2 + name.length
  | .setdata data => 2 + data.length
  | .curlen => 1
  | .txonce => 1
  | .senddata data => 2 + data.length

/-- Byte 0 is the opcode, which table O has, and the frame is as long as its format says. -/
def Statement (i : Instr) : Prop :=
  (encode i).head? = some (opcode i) ∧ (operandsOf (opcode i)).isSome = true ∧ (encode i).length = frameLength i

theorem revb (b : Byte) : Statement (.revb b) := ⟨rfl, rfl, rfl⟩
theorem wseed (ch : Byte) : Statement (.wseed ch) := ⟨rfl, rfl, rfl⟩
theorem crc24 (c0 c1 c2 : Byte) (data : List Byte) : Statement (.crc24 c0 c1 c2 data) :=
  ⟨rfl, rfl, by simp [encode, operandBytes, counted, frameLength]; omega⟩
theorem whiten (seed : Byte) (data : List Byte) : Statement (.whiten seed data) :=
  ⟨rfl, rfl, by simp [encode, operandBytes, counted, frameLength]; omega⟩
theorem encode (ch : Byte) (packet : List Byte) : Statement (.encode ch packet) :=
  ⟨rfl, rfl, by simp [Sys2Proof.encode, operandBytes, counted, frameLength]; omega⟩
theorem advance : Statement .advance := ⟨rfl, rfl, rfl⟩
theorem setaddr (a0 a1 a2 a3 a4 a5 : Byte) : Statement (.setaddr a0 a1 a2 a3 a4 a5) := ⟨rfl, rfl, rfl⟩
theorem setname (name : List Byte) : Statement (.setname name) :=
  ⟨rfl, rfl, by simp [Sys2Proof.encode, operandBytes, counted, frameLength]; omega⟩
theorem setdata (data : List Byte) : Statement (.setdata data) :=
  ⟨rfl, rfl, by simp [Sys2Proof.encode, operandBytes, counted, frameLength]; omega⟩
theorem curlen : Statement .curlen := ⟨rfl, rfl, rfl⟩
theorem txonce : Statement .txonce := ⟨rfl, rfl, rfl⟩
theorem senddata (data : List Byte) : Statement (.senddata data) :=
  ⟨rfl, rfl, by simp [Sys2Proof.encode, operandBytes, counted, frameLength]; omega⟩

end Sys2Proof.Laws.FrameShape
end

