-- ==== Sys2Proof/Laws/Transforms.lean ====
section
/-! SUPPORT. What each transform does to one bit, one step and one byte. -/

namespace Sys2Proof.Machine

/-- Bytes with equal bits are equal. -/
theorem byte_ext (a b : Byte) (h : ∀ i, i < 8 → a.getLsbD i = b.getLsbD i) : a = b :=
  BitVec.eq_of_getLsbD_eq fun i hi => h i hi

/-- A bit moved to position `j` stands there and nowhere else. -/
theorem bitTo_getLsbD (b : Byte) (i j k : Nat) (hk : k < 8) :
    (bitTo b i j).getLsbD k = (decide (k = j) && b.getLsbD i) := by
  unfold bitTo
  by_cases h : b.getLsbD i = true
  · rw [if_pos h, h, Bool.and_true, BitVec.getLsbD_shiftLeft]
    by_cases hj : k = j
    · subst hj
      simp [hk]
    · simp only [hk, decide_true, Bool.true_and, hj, decide_false]
      by_cases hlt : k < j
      · simp [hlt]
      · have : k - j ≠ 0 := by omega
        simp [this]
  · rw [if_neg h, Bool.eq_false_iff.2 h]
    simp

/-- `rev8` (R100): bit `i` is bit `7 - i`. -/
theorem rev8_getLsbD (b : Byte) (i : Nat) (hi : i < 8) : (rev8 b).getLsbD i = b.getLsbD (7 - i) := by
  unfold rev8
  simp only [BitVec.getLsbD_or, bitTo_getLsbD _ _ _ _ hi]
  match i, hi with
  | 0, _ | 1, _ | 2, _ | 3, _ | 4, _ | 5, _ | 6, _ | 7, _ => simp

/-! ### The CRC step, bit by bit (R111) -/

theorem crcStep_c0 (a : Acc) (x : Bool) (k : Nat) (hk : k < 8) :
    (crcStep a x).c0.getLsbD k = if k = 0 then a.c1.getLsbD 7 else a.c0.getLsbD (k - 1) := by
  simp only [crcStep, BitVec.getLsbD_or, bitTo_getLsbD _ _ _ _ hk, BitVec.getLsbD_shiftLeft]
  match k, hk with
  | 0, _ => simp
  | k + 1, hk => simp [hk]

theorem crcStep_c1 (a : Acc) (x : Bool) (k : Nat) (hk : k < 8) :
    (crcStep a x).c1.getLsbD k =
      Bool.xor (if k = 0 then a.c2.getLsbD 7 else a.c1.getLsbD (k - 1))
        (crcTapB1.getLsbD k && (a.c0.getLsbD 7 != x)) := by
  have hs : (a.c1 <<< 1 ||| bitTo a.c2 7 0).getLsbD k = if k = 0 then a.c2.getLsbD 7 else a.c1.getLsbD (k - 1) := by
    simp only [BitVec.getLsbD_or, bitTo_getLsbD _ _ _ _ hk, BitVec.getLsbD_shiftLeft]
    match k, hk with
    | 0, _ => simp
    | k + 1, hk => simp [hk]
  simp only [crcStep]
  by_cases hf : (a.c0.getLsbD 7 != x) = true
  · rw [if_pos hf, BitVec.getLsbD_xor, hs, hf, Bool.and_true]
  · rw [if_neg hf, hs, Bool.eq_false_iff.2 hf, Bool.and_false, Bool.xor_false]

theorem crcStep_c2 (a : Acc) (x : Bool) (k : Nat) (hk : k < 8) :
    (crcStep a x).c2.getLsbD k =
      Bool.xor (if k = 0 then false else a.c2.getLsbD (k - 1)) (crcTapB2.getLsbD k && (a.c0.getLsbD 7 != x)) := by
  have hs : (a.c2 <<< 1).getLsbD k = if k = 0 then false else a.c2.getLsbD (k - 1) := by
    rw [BitVec.getLsbD_shiftLeft]
    match k, hk with
    | 0, _ => simp
    | k + 1, hk => simp [hk]
  simp only [crcStep]
  by_cases hf : (a.c0.getLsbD 7 != x) = true
  · rw [if_pos hf, BitVec.getLsbD_xor, hs, hf, Bool.and_true]
  · rw [if_neg hf, hs, Bool.eq_false_iff.2 hf, Bool.and_false, Bool.xor_false]

/-- The bits of the 24-bit register in its three bytes (R54). -/
theorem reg24_getLsbD (c0 c1 c2 : Byte) (j : Nat) (hj : j < 24) :
    (reg24 c0 c1 c2).getLsbD j =
      if j < 8 then c2.getLsbD j else if j < 16 then c1.getLsbD (j - 8) else c0.getLsbD (j - 16) := by
  simp only [reg24, BitVec.getLsbD_append]
  split_ifs <;> first | rfl | omega

/-! ### The whitening step (R131) -/

theorem lfsr_add (w : Byte) (m n : Nat) : lfsr (lfsr w m) n = lfsr w (m + n) := by
  induction n with
  | zero => rfl
  | succ n ih => rw [lfsr, ih, ← Nat.add_assoc, lfsr]

/-- The register after a step does not depend on the data bit. -/
theorem whStep_register (w : Byte) (x : Bool) : (whStep w x).1 = lfsr w 1 := by
  change _ = (if w.getLsbD 7 then w ^^^ 0x11 else w) <<< 1
  unfold whStep
  by_cases h : w.getLsbD 7 = true
  · rw [if_pos h, if_pos h]
    rfl
  · rw [if_neg h, if_neg h]

/-- The register after a run of steps depends on their number only (R134 item 1). -/
theorem whRegister_eq (w : Byte) (bits : List Bool) : whRegister w bits = lfsr w bits.length := by
  induction bits generalizing w with
  | nil => rfl
  | cons x bits ih =>
    change whRegister (whStep w x).1 bits = _
    rw [ih, whStep_register, lfsr_add, List.length_cons, Nat.add_comm]

/-- The data bit is flipped exactly when the top bit was set. -/
theorem whStep_bit (w : Byte) (x : Bool) : (whStep w x).2 = Bool.xor x (w.getLsbD 7) := by
  unfold whStep
  by_cases h : w.getLsbD 7 = true
  · rw [if_pos h, h, Bool.xor_true]
  · rw [if_neg h, Bool.eq_false_iff.2 h, Bool.xor_false]

theorem setBit_getLsbD (d : Byte) (i : Nat) (x : Bool) (k : Nat) (hk : k < 8) :
    (setBit d i x).getLsbD k = if k = i then x else d.getLsbD k := by
  have hone : ((1 : Byte) <<< i).getLsbD k = decide (k = i) := by
    have := bitTo_getLsbD 1 0 i k hk
    simpa [bitTo] using this
  unfold setBit
  cases x
  · simp only [Bool.false_eq_true, if_false, BitVec.getLsbD_and, BitVec.getLsbD_not, hone, hk, decide_true, Bool.true_and]
    by_cases h : k = i <;> simp [h]
  · simp only [if_true, BitVec.getLsbD_or, hone]
    by_cases h : k = i <;> simp [h]

/-- One whole byte: the register moves eight steps and bit `i` is flipped by the stream bit of step `i`. -/
theorem whByte_register (w d : Byte) : (whByte w d).1 = lfsr w 8 := by
  simp only [whByte, lsbFirst, List.foldl, whStep_register, lfsr_add]

theorem whByte_bit (w d : Byte) (i : Nat) (hi : i < 8) :
    (whByte w d).2.getLsbD i = Bool.xor (d.getLsbD i) (keyBit w i) := by
  simp only [whByte, lsbFirst, List.foldl, whStep_register, whStep_bit, lfsr_add]
  match i, hi with
  | 0, _ | 1, _ | 2, _ | 3, _ | 4, _ | 5, _ | 6, _ | 7, _ =>
    simp (disch := decide) only [setBit_getLsbD, Nat.reduceAdd, Nat.reduceEqDiff, reduceIte, OfNat.ofNat_ne_zero,
      OfNat.zero_ne_ofNat, OfNat.one_ne_ofNat, OfNat.ofNat_ne_one, one_ne_zero, zero_ne_one]
    rfl

end Sys2Proof.Machine
end

