-- ==== Sys2Proof/Tests/Slice0.lean ====
section
/-! SUPPORT. Tests of the model against the worked numbers of 95_test_vectors.md and 96_test_programs.md, the refusals of
WellFormed and of the decoder, and for every statement with hypotheses a concrete state and operands that meet them. -/

namespace Sys2Proof.Tests

open Sys2Proof Sys2Proof.Machine

set_option Elab.async false

/-! ### Small states -/

/-- The parameters of the vectors (95_test_vectors.md, opening); `TX_HOLD_MS` is symbolic there and 7 here. -/
def tc : Config where
  cap := 32
  hdr := 0x42
  flagsAd := ⟨0x02, 0x01, 0x05⟩
  addrReset := ⟨0xC0, 0xFF, 0xEE, 0x00, 0x00, 0x01⟩
  txHoldMs := 7
  txLevel := true

/-- The reset state of the vectors. -/
def r0 : State := State.initial tc

/-- A frame buffer that holds these bytes from index 0, then zeros. -/
def fbOf (bytes : List Byte) : Memory := Memory.writeAll Buf.fb.blank [] 0 bytes

/-- The bytes of FB before the name field, for a length byte, with the reset address. -/
def front (len : Byte) : List Byte := [0x42, len, 0x01, 0x00, 0x00, 0xEE, 0xFF, 0xC0, 0x02, 0x01, 0x05]

/-- The name field of "Tag". -/
def tagField : List Byte := [0x04, 0x08, 0x54, 0x61, 0x67]

/-- After SETNAME "Tag" from reset (95_test_vectors.md 2.7 row 1). -/
def tagged : State := { r0 with fb := fbOf (front 0x00 ++ tagField), nameSet := true, nameLen := 3, remain := 13 }

/-- After SETDATA `x` on that state. -/
def withData (x : List Byte) : State :=
  { tagged with
    fb := fbOf (front 0x00 ++ tagField ++ BitVec.ofNat 8 (x.length + 1) :: 0xFF :: x)
    dataSet := true
    dataLen := x.length }

/-- The data bytes 30, 31, ... of 95_test_vectors.md 2.7. -/
def run30 (n : Nat) : List Byte := (List.range n).map fun k => BitVec.ofNat 8 (0x30 + k)

/-- What a next state shows. -/
def got {α : Type} (f : State → α) : Outcome → Option α
  | .next t => some (f t)
  | .fault _ => none
  | .refused _ => none

/-- It answers a next state. -/
def goes (o : Outcome) : Bool := (got (fun _ => ()) o).isSome

theorem exists_next (o : Outcome) (h : goes o = true) : ∃ t, o = .next t := by
  cases o with
  | next t => exact ⟨t, rfl⟩
  | fault f => cases h
  | refused r => cases h

/-- The pending inputs of one transmission of the host. -/
def sending (bytes : List Byte) (s : State) : State := s.withInputs [.send bytes]

/-! ### WellFormed refuses what no `len` byte can count (30_encoding.md R72) -/

theorem test_wf_crc24 : (Instr.crc24 0 0 0 (List.replicate 256 0)).wf = false := by decide +kernel
theorem test_wf_whiten : (Instr.whiten 0 (List.replicate 256 0)).wf = false := by decide +kernel
theorem test_wf_encode : (Instr.encode 0 (List.replicate 256 0)).wf = false := by decide +kernel
theorem test_wf_setname : (Instr.setname (List.replicate 256 0)).wf = false := by decide +kernel
theorem test_wf_setdata : (Instr.setdata (List.replicate 256 0)).wf = false := by decide +kernel
theorem test_wf_senddata : (Instr.senddata (List.replicate 256 0)).wf = false := by decide +kernel
theorem test_wf_longest : (Instr.crc24 0 0 0 (List.replicate 255 0)).wf = true := by decide +kernel

/-! ### Decoding: frames written from R71, R75 and R78 -/

theorem test_decode_revb : decode [0x01, 0xA4, 0x07] = .frame (.revb 0xA4) [0x07] := by decide
theorem test_decode_wseed : decode [0x02, 0x27] = .frame (.wseed 0x27) [] := by decide
theorem test_decode_crc24 :
    decode [0x03, 0x12, 0x34, 0x56, 0x02, 0xA5, 0x5A, 0x13] = .frame (.crc24 0x12 0x34 0x56 [0xA5, 0x5A]) [0x13] := by
  decide
theorem test_decode_whiten :
    decode [0x04, 0xA6, 0x04, 0x42, 0x12, 0x00, 0xFF] = .frame (.whiten 0xA6 [0x42, 0x12, 0x00, 0xFF]) [] := by decide
theorem test_decode_encode :
    decode [0x05, 0x26, 0x05, 0x42, 0x00, 0x55, 0x55, 0x55] = .frame (.encode 0x26 [0x42, 0x00, 0x55, 0x55, 0x55]) [] := by
  decide
theorem test_decode_advance : decode [0x06, 0x14] = .frame .advance [0x14] := by decide
theorem test_decode_setaddr :
    decode [0x10, 0x01, 0x23, 0x45, 0x67, 0x89, 0xAB] = .frame (.setaddr 0x01 0x23 0x45 0x67 0x89 0xAB) [] := by decide
theorem test_decode_setname : decode [0x11, 0x03, 0x54, 0x61, 0x67] = .frame (.setname [0x54, 0x61, 0x67]) [] := by decide
theorem test_decode_setdata : decode [0x12, 0x00, 0x12] = .frame (.setdata []) [0x12] := by decide
theorem test_decode_curlen : decode [0x13] = .frame .curlen [] := by decide
theorem test_decode_txonce : decode [0x14, 0x14] = .frame .txonce [0x14] := by decide
theorem test_decode_senddata : decode [0x15, 0x02, 0x03, 0x04, 0x14] = .frame (.senddata [0x03, 0x04]) [0x14] := by decide

/-- Reserved opcodes at the edges of R76's ranges. -/
theorem test_decode_reserved : decode [0x00] = .rejected (.reservedOpcode 0x00) ∧
    decode [0x07] = .rejected (.reservedOpcode 0x07) ∧ decode [0x0F, 0x01] = .rejected (.reservedOpcode 0x0F) ∧
    decode [0x16] = .rejected (.reservedOpcode 0x16) ∧ decode [0xFF] = .rejected (.reservedOpcode 0xFF) := by decide

/-- The cut frames of 95_test_vectors.md 2.8. -/
theorem test_decode_cut : decode [0x01] = .rejected (.cutShort 0x01) ∧
    decode [0x10, 0x01, 0x02, 0x03] = .rejected (.cutShort 0x10) ∧
    decode [0x11, 0x03, 0x54, 0x61] = .rejected (.cutShort 0x11) ∧ decode [0x12] = .rejected (.cutShort 0x12) ∧
    decode [0x03, 0x55, 0x55] = .rejected (.cutShort 0x03) ∧
    decode [0x03, 0x55, 0x55, 0x55, 0x02, 0x31] = .rejected (.cutShort 0x03) ∧
    decode [0x05, 0x25] = .rejected (.cutShort 0x05) := by decide

theorem test_encode : encode (.setaddr 0x01 0x23 0x45 0x67 0x89 0xAB) = [0x10, 0x01, 0x23, 0x45, 0x67, 0x89, 0xAB] ∧
    encode (.crc24 0x55 0x55 0x55 [0x42]) = [0x03, 0x55, 0x55, 0x55, 0x01, 0x42] ∧
    encode (.whiten 0xA6 []) = [0x04, 0xA6, 0x00] := by decide

/-- A table word runs as the first operation after reset. -/
theorem test_table_word : decodeTableWord 8 0x14 = some .txonce ∧ decodeTableWord 8 0x03 = some (.crc24 0 0 0 []) ∧
    decodeTableWord 8 0x16 = none := by decide
theorem test_fetch_word : got (fun t => (t.responses, t.inputs)) (step (State.reset.withFetchWord 8 0x06)) =
    some ([[0x00, 0x25, 0x02]], []) := by decide

/-! ### One operation each (95_test_vectors.md section 2, 96_test_programs.md) -/

theorem test_revb : got (·.responses) (exec (.revb 0x25) r0) = some [[0x00, 0xA4]] := by decide +kernel
theorem test_revb_nibble : got (·.responses) (exec (.revb 0x0F) r0) = some [[0x00, 0xF0]] := by decide +kernel
theorem test_wseed : got (·.responses) (exec (.wseed 0x25) r0) = some [[0x00, 0xA6]] := by decide +kernel
theorem test_wseed_high : got (·.responses) (exec (.wseed 0x80) r0) = some [[0x00, 0x03]] := by decide +kernel
theorem test_crc24 : got (·.responses) (exec (.crc24 0x12 0x34 0x56 [0xA5]) r0) =
    some [[0x00, 0x37, 0xC6, 0xD1]] := by decide +kernel
theorem test_crc24_check : got (·.responses)
    (exec (.crc24 0x55 0x55 0x55 [0x31, 0x32, 0x33, 0x34, 0x35, 0x36, 0x37, 0x38, 0x39]) r0) =
    some [[0x00, 0x6A, 0x5A, 0x43]] := by decide +kernel
theorem test_whiten : got (·.responses) (exec (.whiten 0xA6 [0x42, 0x12, 0x00, 0xFF]) r0) =
    some [[0x00, 0xCF, 0xC0, 0x57, 0x5E]] := by decide +kernel
theorem test_whiten_bit0 : got (·.responses) (exec (.whiten 0x01 [0x00, 0x00, 0x00, 0x00]) r0) =
    some [[0x00, 0x80, 0x64, 0x79, 0x87]] := by decide +kernel
theorem test_encode_packet : got (·.responses) (exec (.encode 0x26 [0x42, 0x00, 0x55, 0x55, 0x55]) r0) =
    some [[0x00, 0x29, 0xA3, 0x00, 0xD9, 0xDD]] := by decide +kernel
theorem test_encode_short : got (·.responses) (exec (.encode 0x25 [0x55, 0x55]) r0) = some [[0x04]] := by decide +kernel
theorem test_advance_first : got (fun t => (t.responses, t.chidx)) (exec .advance r0) =
    some ([[0x00, 0x25, 0x02]], 1) := by decide +kernel
theorem test_advance_wraps : got (fun t => (t.responses, t.chidx)) (exec .advance { r0 with chidx := 2 }) =
    some ([[0x00, 0x27, 0x50]], 0) := by decide +kernel
theorem test_setaddr : got (fun t => (t.responses, t.addr.a0, t.fb))
    (exec (.setaddr 0x01 0x23 0x45 0x67 0x89 0xAB) tagged) =
    some ([[0x00]], 0x01, fbOf ([0x42, 0x00, 0xAB, 0x89, 0x67, 0x45, 0x23, 0x01, 0x02, 0x01, 0x05] ++ tagField)) := by
  decide +kernel
theorem test_setname : got (fun t => (t.responses, t.fb, t.nameLen, t.dataSet, t.remain))
    (exec (.setname [0x54, 0x61, 0x67]) (withData [0x01, 0x02])) =
    some ([[0x00, 0x0D]], fbOf (front 0x00 ++ tagField), 3, false, 13) := by decide +kernel
theorem test_setname_too_long : got (fun t => (t.responses, t.fb, t.nameSet))
    (exec (.setname (List.replicate 17 0x41)) r0) = some ([[0x01]], r0.fb, false) := by decide +kernel
theorem test_setdata_stale_tail : got (fun t => (t.responses, t.fb, t.dataLen))
    (exec (.setdata [0x77]) (withData [0x30, 0x31, 0x32])) =
    some ([[0x00]], fbOf (front 0x00 ++ tagField ++ [0x02, 0xFF, 0x77, 0x31, 0x32]), 1) := by decide +kernel
theorem test_setdata_declined : got (·.responses) (exec (.setdata [0x01]) r0) = some [[0x02]] ∧
    got (·.responses) (exec (.setdata (run30 14)) tagged) = some [[0x01]] := by decide +kernel
theorem test_curlen : got (·.responses) (exec .curlen (withData [0x01, 0x02])) = some [[0x00, 0x12]] := by decide +kernel
theorem test_curlen_reset : got (·.responses) (exec .curlen r0) = some [[0x00, 0x09]] := by decide +kernel
theorem test_txonce : got (fun t => (t.responses, t.chidx, t.radio)) (exec .txonce r0) =
    some ([[0x00]], 1, [.setChannelFrequency 0x02, .writeBytes [0xF3, 0xDB, 0x6A, 0x85, 0xBC, 0x92, 0x99, 0x0E, 0xEE,
      0x0C, 0x28, 0x4D, 0x1A, 0x95] 14, .pulseSignal true 7]) := by decide +kernel
theorem test_txonce_frame : got (fun t => (t.fb, (List.range 15).map (t.byteAt .tx))) (exec .txonce r0) =
    some (fbOf (front 0x09 ++ [0x55, 0x55, 0x55]), [some 0xF3, some 0xDB, some 0x6A, some 0x85, some 0xBC, some 0x92,
      some 0x99, some 0x0E, some 0xEE, some 0x0C, some 0x28, some 0x4D, some 0x1A, some 0x95, none]) := by decide +kernel
theorem test_senddata : got (fun t => (t.responses, t.fb, t.radio.drop 1))
    (exec (.senddata [0x77]) { withData [0x34] with chidx := 1 }) =
    some ([[0x00]], fbOf (front 0x11 ++ tagField ++ [0x02, 0xFF, 0x77, 0x55, 0x55, 0x55]),
      [.writeBytes [0x29, 0x2B, 0xA2, 0x04, 0x9A, 0x0C, 0x78, 0xF2, 0x98, 0x25, 0x55, 0x62, 0xCE, 0x58, 0x35, 0xE0,
        0x97, 0xB9, 0xAA, 0xCA, 0xBB, 0xE3] 22, .pulseSignal true 7]) := by decide +kernel
theorem test_senddata_overrun : got (fun t => (t.responses, t.fb, t.chidx, t.radio))
    (exec (.senddata (run30 13)) tagged) = some ([[0x03]], (withData (run30 13)).fb, 0, []) := by decide +kernel

/-! ### Steps -/

theorem test_step_two_frames : got (fun t => (t.responses, t.inputs)) (step (sending [0x06, 0x13] r0)) =
    some ([[0x00, 0x25, 0x02]], [.send [0x13]]) := by decide +kernel
theorem test_step_reserved : got (fun t => (t.responses, t.inputs)) (step (sending [0x16, 0x13] r0)) =
    some ([[0x05]], [.send [0x13]]) := by decide +kernel
theorem test_step_cut : got (fun t => (t.responses, t.inputs, t.fb)) (step (sending [0x11, 0x03, 0x54, 0x61] r0)) =
    some ([[0x04]], [], r0.fb) := by decide +kernel
theorem test_step_reset : got (fun t => (t.fb, t.chidx, t.nameSet, t.responses))
    (step { tagged with chidx := 2, inputs := [.rst] }) = some (r0.fb, 0, false, []) := by decide +kernel

/-! ### Witnesses: for each statement with hypotheses, a state and operands that meet them, clause by clause -/

/-- The state after SETNAME "Tag" and a data field of `n` bytes. -/
def framed (n : Nat) : State := withData (run30 n)

theorem inv_r0 : Inv r0 := by constructor <;> decide +kernel
theorem inv_tagged : Inv tagged := by constructor <;> decide +kernel
theorem inv_framed_11 : Inv (framed 11) := by constructor <;> decide +kernel
theorem inv_framed_12 : Inv (framed 12) := by constructor <;> decide +kernel

theorem witness_DecodeOfEncodedFrame : (Instr.setname (List.replicate 255 0x41)).wf = true := by decide +kernel
theorem witness_DecodedBytesAreItsFrame : decode [0x12, 0x01, 0x77, 0x14] = .frame (.setdata [0x77]) [0x14] := by decide +kernel
theorem witness_ReservedOpcodesAreThose : decode [0x00] = .rejected (.reservedOpcode 0x00) ∧
    decode [0x07] = .rejected (.reservedOpcode 0x07) ∧ decode [0x0F] = .rejected (.reservedOpcode 0x0F) ∧
    decode [0x16] = .rejected (.reservedOpcode 0x16) ∧ decode [0x06] = .frame .advance [] := by decide +kernel
theorem witness_CutShortIsNoWholeFrame : decode [0x12, 0x02, 0x77] = .rejected (.cutShort 0x12) ∧
    isOpcode 0x12 = true := by decide +kernel
theorem witness_StepRunsDecodedOperation : (sending [0x14, 0x13] r0).inputs = .send [0x14, 0x13] :: [] ∧
    decode [0x14, 0x13] = .frame .txonce [0x13] := by decide +kernel
theorem witness_IdleStepKeepsState : tagged.inputs = [] := by decide +kernel
theorem witness_ReservedOpcodeAnsweredWithoutEffect :
    (sending [0x16, 0x13] tagged).inputs = .send (0x16 :: [0x13]) :: [] ∧ isOpcode 0x16 = false ∧
      (sending [0x00] tagged).inputs = .send (0x00 :: []) :: [] ∧ isOpcode 0x00 = false := by decide +kernel
theorem witness_CutFrameAnsweredWithoutEffect : (sending [0x01] tagged).inputs = .send [0x01] :: [] ∧
    decode [0x01] = .rejected (.cutShort 0x01) := by decide +kernel
theorem witness_OneResponsePerFrame :
    (∃ t, step (sending [0x06] r0) = .next t) ∧ (∃ t, step r0 = .next t) ∧
      (∃ t, step (r0.withInputs [.send []]) = .next t) := ⟨exists_next _ (by decide +kernel), exists_next _ (by decide +kernel), exists_next _ (by decide +kernel)⟩
theorem witness_ResetInputRestoresResetState : (tagged.withInputs [.rst, .send [0x14]]).inputs =
    .rst :: [.send [0x14]] := by decide +kernel
theorem witness_InvariantHoldsAfterReset : { tc with cap := 16 }.legal ∧ { tc with cap := 255 }.legal := by decide +kernel
theorem witness_RevbAnswersReversedByte : (0 : Nat) < 8 ∧ (7 : Nat) < 8 := by decide +kernel
theorem witness_CrcAnswersRegister : (List.replicate 255 (0x5A : Byte)).length ≤ 255 ∧ ([] : List Byte).length ≤ 255 := by
  decide +kernel
theorem witness_CrcStepTapByTap : (0 : Nat) < 23 ∧ (22 : Nat) < 23 := by decide +kernel
theorem witness_CrcIsLinear : ([0x0F, 0x01] : List Byte).length = ([0xF0, 0x80] : List Byte).length := by decide +kernel
theorem witness_WhitenFlipsByTheStream : 1 < ([0x42, 0x12] : List Byte).length ∧ (7 : Nat) < 8 ∧
    ([0x42, 0x12] : List Byte).length ≤ 255 := by decide +kernel
theorem witness_WhiteningRegisterOfChannels : (0x00 : Byte).toNat < 40 ∧ (0x27 : Byte).toNat < 40 ∧
    (List.replicate 127 true).length = 127 ∧ 0 < [true].length ∧ [true].length < 127 ∧
    (List.replicate 126 false).length < 127 ∧ (List.replicate 128 true).length = [false].length + 127 := by decide +kernel
/-- The register of channel 37 after one step and after eight (bit trace of 95_test_vectors.md 2.3). -/
theorem test_whitening_register : whRegister 0xA6 [false] = 0x6E ∧
    whRegister 0xA6 [false, true, false, false, false, false, true, false] = 0x42 := by decide +kernel
theorem witness_WseedAnswersSeed : (0 : Nat) < 8 ∧ (0 : Nat) ≠ 1 ∧ (7 : Nat) < 8 ∧ (7 : Nat) ≠ 1 := by decide +kernel
theorem witness_EncodeAnswersFourSteps : ([] : List Byte).length < 3 ∧ ([0x55, 0x55] : List Byte).length < 3 := by decide +kernel
theorem witness_EncodeClosedForm : 3 ≤ ([0x55, 0x55, 0x55] : List Byte).length ∧
    3 ≤ ([0x42, 0x55, 0x55, 0x55] : List Byte).length ∧ 0 < ([0x42, 0x55, 0x55, 0x55] : List Byte).length - 3 := by decide +kernel
theorem witness_ReversePipelineRecovers :
    encodePacket [0x42, 0x00, 0x55, 0x55, 0x55] 0x26 = some [0x29, 0xA3, 0x00, 0xD9, 0xDD] := by decide +kernel
theorem witness_EncodeActsBytewiseOnData :
    encodePacket [0x42, 0x00, 0x55, 0x55, 0x55] 0x26 = some [0x29, 0xA3, 0x00, 0xD9, 0xDD] ∧
      (encodePacket [0x43, 0x00, 0x00, 0x00, 0x00] 0x26).isSome = true ∧ 1 < 5 - 3 := by decide +kernel
theorem witness_AdvanceAnswersCurrentPair : r0.chidx.val = 0 ∧ ({ r0 with chidx := 1 } : State).chidx.val = 1 ∧
    ({ r0 with chidx := 2 } : State).chidx.val = 2 := by decide +kernel
theorem witness_AdvancesRotate : r0.inputs = List.replicate 0 (.send [0x06]) ∧
    (r0.withInputs (List.replicate 4 (.send [0x06]))).inputs = List.replicate 4 (.send [0x06]) := by decide +kernel
theorem witness_SetaddrStoresAddress : tagged.cfg.legal := by decide +kernel
theorem witness_SetnameWritesNameField : tagged.cfg.legal ∧ (List.replicate 16 (0x41 : Byte)).length ≤ tagged.cfg.cap - 16 ∧
    tagged.cfg.cap - 16 < (List.replicate 17 (0x41 : Byte)).length := by decide +kernel
theorem witness_SetdataWritesDataField : Inv tagged ∧ tagged.nameSet = true ∧ (run30 13).length ≤ tagged.remain ∧
    tagged.remain < (run30 14).length ∧ Inv r0 ∧ r0.nameSet = false :=
  ⟨inv_tagged, by decide +kernel, by decide +kernel, by decide +kernel, inv_r0, by decide +kernel⟩
theorem witness_CurlenAnswersLength : Inv (framed 11) := inv_framed_11
theorem witness_CapacityFormulaDecidesSetdata : Inv r0 ∧ ([0x54, 0x61, 0x67] : List Byte).length ≤ r0.cfg.cap - 16 ∧
    (∃ s1, exec (.setname [0x54, 0x61, 0x67]) r0 = .next s1) ∧
    (run30 13).length ≤ r0.cfg.cap - 11 - 3 - 2 - 3 ∧ r0.cfg.cap - 11 - 3 - 2 - 3 < (run30 14).length :=
  ⟨inv_r0, by decide +kernel, exists_next _ (by decide +kernel), by decide +kernel, by decide +kernel⟩
theorem witness_RenamingErasesData : (framed 11).cfg.legal ∧ ([0x41] : List Byte).length ≤ (framed 11).cfg.cap - 16 ∧
    ∃ s1, exec (.setname [0x41]) (framed 11) = .next s1 := ⟨by decide +kernel, by decide +kernel, exists_next _ (by decide +kernel)⟩
theorem witness_BuilderKeepsHeaderLengthFlags :
    (∃ t, exec (.setaddr 1 2 3 4 5 6) tagged = .next t) ∧ (∃ t, exec (.setname [0x41]) tagged = .next t) ∧
      (∃ t, exec (.setdata [0x41]) tagged = .next t) ∧ (∃ t, exec .curlen tagged = .next t) ∧ 8 ≤ 10 ∧ 10 < 11 :=
  ⟨exists_next _ (by decide +kernel), exists_next _ (by decide +kernel), exists_next _ (by decide +kernel), exists_next _ (by decide +kernel), by decide +kernel, by decide +kernel⟩
theorem witness_TxonceTransmits : totalLen (framed 11) ≤ (framed 11).cfg.cap := by decide +kernel
theorem witness_TxonceOverrunWithoutEffect : (framed 12).cfg.cap < 2 + currentLength (framed 12) + 3 := by decide +kernel
theorem witness_SenddataIsSetdataThenTxonce : r0.nameSet = false ∧ tagged.remain < (run30 14).length ∧
    tagged.nameSet = true ∧ (run30 13).length ≤ tagged.remain ∧ (∃ s1, exec (.setdata (run30 13)) tagged = .next s1) ∧
    (run30 13).length ≤ 255 := ⟨by decide +kernel, by decide +kernel, by decide +kernel, by decide +kernel, exists_next _ (by decide +kernel), by decide +kernel⟩
theorem witness_SenddataTransmits : Inv tagged ∧ tagged.nameSet = true ∧ (run30 11).length ≤ tagged.remain ∧
    18 + tagged.nameLen + (run30 11).length ≤ tagged.cfg.cap := ⟨inv_tagged, by decide +kernel, by decide +kernel, by decide +kernel⟩
theorem witness_SenddataOverrunKeepsDataField : Inv tagged ∧ tagged.nameSet = true ∧ (run30 12).length ≤ tagged.remain ∧
    tagged.cfg.cap < 18 + tagged.nameLen + (run30 12).length := ⟨inv_tagged, by decide +kernel, by decide +kernel, by decide +kernel⟩
theorem witness_TransmittedExactlyWhenItFits : Inv (framed 11) ∧ (framed 11).dataSet = true ∧ Inv (framed 12) ∧
    (framed 12).cfg.cap < 18 + (framed 12).nameLen + (framed 12).dataLen ∧ Inv r0 ∧ r0.dataSet = false :=
  ⟨inv_framed_11, by decide +kernel, inv_framed_12, by decide +kernel, inv_r0, by decide +kernel⟩
theorem witness_TransmissionIsRecoverable : totalLen r0 ≤ r0.cfg.cap := by decide +kernel
theorem witness_RadioCallsComeInThrees : (∃ t, step (sending [0x14] r0) = .next t) ∧
    ∃ t, step (sending [0x13] r0) = .next t := ⟨exists_next _ (by decide +kernel), exists_next _ (by decide +kernel)⟩
theorem inv_sending : Inv (sending [0x14] r0) := by constructor <;> decide +kernel
theorem witness_StepKeepsInvariant : Inv (sending [0x14] r0) ∧ ∃ t, step (sending [0x14] r0) = .next t :=
  ⟨inv_sending, exists_next _ (by decide +kernel)⟩
theorem witness_StepNeverStops : Inv (sending [0x14] r0) := inv_sending
theorem witness_DeclinedOperationsChangeNothing : (∃ t, exec .txonce r0 = .next t) ∧
    (∃ t, exec .txonce (framed 12) = .next t) ∧ ∃ t, exec (.senddata (run30 12)) tagged = .next t :=
  ⟨exists_next _ (by decide +kernel), exists_next _ (by decide +kernel), exists_next _ (by decide +kernel)⟩
theorem witness_OnlyListedOperationsWrite : (∃ t, exec (.setname [0x41]) r0 = .next t) ∧
    got (fun t => (decide (t.fb = r0.fb), t.remain)) (exec (.setname [0x41]) r0) = some (false, 15) :=
  ⟨exists_next _ (by decide +kernel), by decide +kernel⟩
theorem witness_TxContentIsNeverRead : ∃ t, step (sending [0x14] { r0 with tx := [(3, 0x77)] }) = .next t := exists_next _ (by decide +kernel)
theorem witness_HistoriesAreNeverRead : ∃ t, step (sending [0x14] { r0 with responses := [[0x05]] }) = .next t := exists_next _ (by decide +kernel)
theorem witness_StaleBytesAreNeverSent :
    (∀ i, i < 2 + currentLength r0 → Memory.read Buf.fb.blank (fbOf (front 0x00 ++ [0x77])) i = r0.byteAt .fb i) ∧
      (∃ t, exec .txonce r0 = .next t) ∧ ∃ t, exec .txonce { r0 with fb := fbOf (front 0x00 ++ [0x77]) } = .next t :=
  ⟨by decide +kernel, exists_next _ (by decide +kernel), exists_next _ (by decide +kernel)⟩
theorem witness_BuffersThatReadAlikeAreEqual : Memory.wf Buf.tx.blank 32 [(0, 0x00), (31, 0xFF)] ∧
    Memory.wf Buf.fb.blank 32 r0.fb ∧ ∀ i, Memory.read Buf.fb.blank r0.fb i = Memory.read Buf.fb.blank r0.fb i :=
  ⟨by decide +kernel, by decide +kernel, fun _ => rfl⟩

end Sys2Proof.Tests
end

section
/-! PROOFS. Scope (00_scope.md): a step runs the decoded operation (R6), gives one response per frame (R70, R73), and
never stops from a state that keeps R35 (R13, R57). -/

namespace Sys2Proof.Machine

/-! ### The pending inputs -/

/-- What stays of a transmission after a frame, as the statements write it (R77). -/
theorem requeue_eq (rest : List Byte) (more : List HostInput) :
    requeue rest more = if rest = [] then more else .send rest :: more := by
  cases rest with
  | nil => rfl
  | cons b bs => rfl

/-- Only the empty byte string is rejected as empty, so a frame or any other rejection has a first byte. -/
theorem exists_cons_of_decode_ne_empty {bytes : List Byte} (h : decode bytes ≠ .rejected .empty) :
    ∃ b bs, bytes = b :: bs := by
  cases bytes with
  | nil => exact absurd rfl h
  | cons b bs => exact ⟨b, bs, rfl⟩

/-- A step that meets a whole frame is its operation (R6, R70). -/
theorem step_of_frame {s : State} {bytes rest : List Byte} {more : List HostInput} {i : Instr}
    (hin : s.inputs = .send bytes :: more) (hdec : decode bytes = .frame i rest) :
    step s = exec i (s.withInputs (requeue rest more)) := by
  have hfetch : fetch s = .run i (s.withInputs (requeue rest more)) := by simp only [fetch, hin, hdec]
  rw [step, hfetch]

/-- Settles O6: the decoded frame is what the step runs, on the inputs that `requeue` leaves. -/
theorem stepRunsDecodedOperation : Obligations.StepRunsDecodedOperation := by
  intro s bytes rest more i hin hdec
  rw [step_of_frame hin hdec, requeue_eq]
  rfl

/-! ### Responses -/

/-- Whatever an operation does, it gives one response (R73). -/
theorem Effect.one_response {s t : State} {i : Instr} (h : Effect s i t) :
    ∃ r, t.responses = s.responses ++ [r] := by
  cases h <;> exact ⟨_, rfl⟩

/-- The next thing the host does is to send at least one byte. -/
def State.meetsBytes (s : State) : Prop := ∃ b bs more, s.inputs = .send (b :: bs) :: more

theorem meetsBytes_of_decode {s : State} {bytes : List Byte} {more : List HostInput}
    (hin : s.inputs = .send bytes :: more) (hdec : decode bytes ≠ .rejected .empty) : s.meetsBytes := by
  obtain ⟨b, bs, rfl⟩ := exists_cons_of_decode_ne_empty hdec
  exact ⟨b, bs, more, hin⟩

/-- A step either meets bytes and gives one response, or meets none and gives none. -/
theorem step_responses {s t : State} (h : step s = .next t) :
    (s.meetsBytes ∧ ∃ r, t.responses = s.responses ++ [r]) ∨ (¬ s.meetsBytes ∧ t.responses = s.responses) := by
  rcases step_cases s with ⟨hin, hs⟩ | ⟨more, hin, hs⟩ | ⟨more, hin, hs⟩ | ⟨bytes, more, i, rest, hin, hdec, hs⟩ |
    ⟨bytes, more, op, hin, hdec, hs⟩ | ⟨bytes, more, op, hin, hdec, hs⟩ <;> rw [hs] at h
  case inl | inr.inl | inr.inr.inl =>
    cases h
    exact .inr ⟨by simp [State.meetsBytes, hin], rfl⟩
  case inr.inr.inr.inl => exact .inl ⟨meetsBytes_of_decode hin (by simp [hdec]), (exec_effect i _ t h).one_response⟩
  case inr.inr.inr.inr.inl | inr.inr.inr.inr.inr =>
    cases h
    exact .inl ⟨meetsBytes_of_decode hin (by simp [hdec]), _, rfl⟩

/-- Settles O10: by what a step can do, an operation giving one response by its effect. -/
theorem oneResponsePerFrame : Obligations.OneResponsePerFrame := by
  intro s t h
  rcases step_responses h with ⟨hm, r, hr⟩ | ⟨hm, hr⟩
  · exact ⟨[r], hr, fun _ => rfl, fun hn => absurd hm hn⟩
  · exact ⟨[], by simpa using hr, fun hm' => absurd hm' hm, fun _ => rfl⟩

/-! ### Progress -/

/-- The invariant does not speak of the pending inputs. -/
theorem Inv.withInputs {s : State} (h : Inv s) (q : List HostInput) : Inv (s.withInputs q) := { h with }

/-- The remaining capacity keeps an accepted data field inside the buffer (R57, R182). -/
theorem Inv.dataField_fits {s : State} (h : Inv s) (hn : s.nameSet = true) {d : Nat} (hd : d ≤ s.remain) :
    15 + s.nameLen + d ≤ s.cfg.cap := by
  obtain ⟨hlen, hrem⟩ := h.name hn
  have hcap := h.legal.1
  omega

/-- Under the invariant `setData` accepts or raises: it never faults. -/
theorem Inv.setData_ok_or_raised {s : State} (h : Inv s) (x : List Byte) :
    setData x s = .ok (dataWritten x s) ∨ ∃ st, setData x s = .error (.raised st) := by
  cases hn : s.nameSet with
  | false => exact .inr ⟨_, setData_noName x s hn⟩
  | true =>
    rcases Nat.lt_or_ge s.remain x.length with hd | hd
    · exact .inr ⟨_, setData_tooLong x s hn hd⟩
    · left
      rw [setData_accepted x s hn hd (h.dataField_fits hn hd), dataWritten, hn]

/-- A transmission answers from every state: a frame that does not fit is declined before any access (R213). -/
theorem execTxonce_next (s : State) : ∃ t, execTxonce s = .next t := by
  rcases transmitOnce_cases s with ⟨-, hs⟩ | ⟨-, hs⟩ <;> exact ⟨_, by rw [execTxonce, hs]; rfl⟩

theorem execEncode_next (ch : Byte) (p : List Byte) (s : State) : ∃ t, execEncode ch p s = .next t := by
  unfold execEncode
  cases encodePacket p ch with
  | some q => exact ⟨_, rfl⟩
  | none => exact ⟨_, rfl⟩

theorem execSetname_next (name : List Byte) (s : State) : ∃ t, execSetname name s = .next t := by
  unfold execSetname
  cases hs : setName name s with
  | ok u => exact ⟨_, rfl⟩
  | error e =>
    obtain ⟨rfl, -⟩ := setName_error name s e hs
    exact ⟨_, rfl⟩

/-- Under the invariant every operation answers a next state. -/
theorem Inv.exec_next {s : State} (h : Inv s) (i : Instr) : ∃ t, exec i s = .next t := by
  cases i with
  | revb _ | wseed _ | crc24 _ _ _ _ | whiten _ _ | advance | curlen => exact ⟨_, rfl⟩
  | encode ch packet => exact execEncode_next ch packet s
  | setaddr a0 a1 a2 a3 a4 a5 =>
    have hcap : 8 ≤ s.cfg.cap := Nat.le_trans (by decide) h.legal.1
    exact ⟨_, by rw [exec, execSetaddr, setAddress_eq _ s hcap]; rfl⟩
  | setname name => exact execSetname_next name s
  | setdata x =>
    rcases h.setData_ok_or_raised x with hs | ⟨st, hs⟩ <;> exact ⟨_, by rw [exec, execSetdata, hs]; rfl⟩
  | txonce => exact execTxonce_next s
  | senddata x =>
    rcases h.setData_ok_or_raised x with hs | ⟨st, hs⟩
    · have hexec : exec (.senddata x) s = execTxonce (dataWritten x s) := by rw [exec, execSenddata, hs]; rfl
      exact hexec ▸ execTxonce_next (dataWritten x s)
    · exact ⟨_, by rw [exec, execSenddata, hs]; rfl⟩

/-- Settles O48: only a decoded operation could stop, and under the invariant none does. -/
theorem stepNeverStops : Obligations.StepNeverStops := by
  intro s h
  rcases step_cases s with ⟨-, hs⟩ | ⟨_, -, hs⟩ | ⟨_, -, hs⟩ | ⟨_, more, i, rest, -, -, hs⟩ | ⟨_, _, _, -, -, hs⟩ |
    ⟨_, _, _, -, -, hs⟩
  case inr.inr.inr.inl => rw [hs]; exact (h.withInputs _).exec_next i
  all_goals exact ⟨_, hs⟩

end Sys2Proof.Machine
end

section
/-! PROOFS. State (10_state.md): the state after reset (R36), the invariant of R35 over every step, and what no step
reads or writes (R20, R22, R34). -/

namespace Sys2Proof.Machine

/-! ### The fixed part of the frame (R35 item 5) -/

/-- The header, the address and the flags structure stand in a frame buffer (R35 item 5). -/
structure FixedBytes (c : Config) (a : DevAddr) (m : Memory) : Prop where
  header : Memory.read Buf.fb.blank m 0 = some c.hdr
  address : ∀ i, i < 6 → Memory.read Buf.fb.blank m (2 + i) = a.bytes[5 - i]?
  flags : Memory.read Buf.fb.blank m 8 = some c.flagsAd.b0 ∧ Memory.read Buf.fb.blank m 9 = some c.flagsAd.b1 ∧
    Memory.read Buf.fb.blank m 10 = some c.flagsAd.b2

theorem Inv.fixedBytes {s : State} (h : Inv s) : FixedBytes s.cfg s.addr s.fb := ⟨h.header, h.address, h.flags⟩

/-- Only the bytes below the name field, the length byte aside, count for the fixed part. -/
theorem FixedBytes.of_agree {c : Config} {a : DevAddr} {m m' : Memory} (h : FixedBytes c a m)
    (hm : ∀ j, j ≠ 1 → j < 11 → Memory.read Buf.fb.blank m' j = Memory.read Buf.fb.blank m j) :
    FixedBytes c a m' where
  header := (hm 0 (by decide) (by decide)).trans h.header
  address i hi := (hm (2 + i) (by omega) (by omega)).trans (h.address i hi)
  flags := by
    obtain ⟨h8, h9, h10⟩ := h.flags
    exact ⟨(hm 8 (by decide) (by decide)).trans h8, (hm 9 (by decide) (by decide)).trans h9,
      (hm 10 (by decide) (by decide)).trans h10⟩

/-- The frame holds the address least significant byte first (R53). -/
theorem addrField_getElem? (a : DevAddr) {i : Nat} (hi : i < 6) : (addrField a)[i]? = a.bytes[5 - i]? := by
  match i, hi with
  | 0, _ | 1, _ | 2, _ | 3, _ | 4, _ | 5, _ => rfl

/-- SETADDR puts the new address into the fixed part and keeps the rest of it (R180). -/
theorem FixedBytes.writeAddr {c : Config} {a : DevAddr} {m : Memory} (h : FixedBytes c a m) (b : DevAddr) :
    FixedBytes c b (Memory.writeAll Buf.fb.blank m 2 (addrField b)) := by
  have hlen : (addrField b).length = 6 := rfl
  obtain ⟨h8, h9, h10⟩ := h.flags
  refine ⟨?_, fun i hi => ?_, ?_, ?_, ?_⟩
  · rw [read_writeAll_of_not _ _ _ _ _ (by omega), h.header]
  · rw [read_writeAll, if_pos (by omega), Nat.add_sub_cancel_left, addrField_getElem? b hi]
  · rw [read_writeAll_of_not _ _ _ _ _ (by omega), h8]
  · rw [read_writeAll_of_not _ _ _ _ _ (by omega), h9]
  · rw [read_writeAll_of_not _ _ _ _ _ (by omega), h10]

/-! ### Reset (R36) -/

/-- The eleven bytes a reset writes (R36). -/
def resetBytes (c : Config) : List Byte :=
  c.hdr :: 0x00 :: addrField c.addrReset ++ [c.flagsAd.b0, c.flagsAd.b1, c.flagsAd.b2]

theorem resetBytes_address (c : Config) {i : Nat} (hi : i < 6) : (resetBytes c)[2 + i]? = c.addrReset.bytes[5 - i]? := by
  rw [← addrField_getElem? c.addrReset hi, resetBytes, Nat.add_comm, List.cons_append, List.cons_append,
    List.getElem?_cons_succ, List.getElem?_cons_succ, List.getElem?_append_left hi]

/-- FB after reset holds the bytes written below index 11. -/
theorem read_resetFrame_of_lt (c : Config) {i : Nat} (hi : i < 11) :
    Memory.read Buf.fb.blank (resetFrame c) i = (resetBytes c)[i]? := by
  have hlen : (resetBytes c).length = 11 := rfl
  rw [show resetFrame c = Memory.writeAll Buf.fb.blank [] 0 (resetBytes c) from rfl, read_writeAll,
    if_pos (by omega), Nat.sub_zero]

/-- FB after reset holds zero from index 11 on. -/
theorem read_resetFrame_of_ge (c : Config) {i : Nat} (hi : 11 ≤ i) :
    Memory.read Buf.fb.blank (resetFrame c) i = some 0x00 := by
  have hlen : (resetBytes c).length = 11 := rfl
  rw [show resetFrame c = Memory.writeAll Buf.fb.blank [] 0 (resetBytes c) from rfl,
    read_writeAll_of_not _ _ _ _ _ (by omega)]
  rfl

theorem fixedBytes_resetFrame (c : Config) : FixedBytes c c.addrReset (resetFrame c) where
  header := read_resetFrame_of_lt c (by decide)
  address i hi := (read_resetFrame_of_lt c (by omega)).trans (resetBytes_address c hi)
  flags := ⟨read_resetFrame_of_lt c (by decide), read_resetFrame_of_lt c (by decide), read_resetFrame_of_lt c (by decide)⟩

/-- Settles O12: the registers by definition, FB by the fixed part, the length byte and the zeros of the reset frame. -/
theorem resetState : Obligations.ResetState := by
  intro c
  obtain ⟨hheader, haddress, h8, h9, h10⟩ := fixedBytes_resetFrame c
  exact ⟨rfl, rfl, rfl, rfl, rfl, rfl, rfl, hheader, read_resetFrame_of_lt c (by decide), haddress, h8, h9, h10,
    fun i hi _ => read_resetFrame_of_ge c hi⟩

/-- The invariant after reset: no field is present, so only the fixed part speaks of FB. -/
theorem inv_initial {c : Config} (hc : c.legal) : Inv (State.initial c) where
  legal := hc
  fbWf := wf_resetFrame c hc
  txWf := wf_nil _ _
  noName _ := ⟨rfl, rfl, rfl, rfl⟩
  name hn := nomatch hn
  data hd := nomatch hd
  noData _ := rfl
  header := (fixedBytes_resetFrame c).header
  address := (fixedBytes_resetFrame c).address
  flags := (fixedBytes_resetFrame c).flags
  nameField hn := nomatch hn
  dataField hd := nomatch hd

/-- Settles O14: the capacity 32 of the default parameters is a legal one. -/
theorem invariantHoldsAfterReset : Obligations.InvariantHoldsAfterReset :=
  ⟨fun _ hc => inv_initial hc, inv_initial (by decide)⟩

/-! ### A transmission and the buffers (R210) -/

/-- A transmission changes no byte of FB below the placeholder but the length byte (R210 step 1). -/
theorem byteAt_transmitted {s : State} {j : Nat} (h1 : j ≠ 1) (hj : j < 2 + currentLength s) :
    (transmitted s).byteAt .fb j = s.byteAt .fb j := by
  rw [State.byteAt, mem_fb, transmitted_fb, framedFb, read_writeAll_of_not _ _ _ _ _ (.inl hj),
    read_writeAll_of_not _ _ _ _ _ (by rw [List.length_singleton]; omega)]
  rfl

/-- A frame that fits keeps FB in canonical form. -/
theorem wf_framedFb {s : State} (hc : totalLen s ≤ s.cfg.cap) (h : Memory.wf Buf.fb.blank s.cfg.cap s.fb) :
    Memory.wf Buf.fb.blank s.cfg.cap (framedFb s) := by
  have hcap : 2 + currentLength s + 3 ≤ s.cfg.cap := hc
  exact wf_writeAll _ _ _ _ _ hcap (wf_writeAll _ _ _ _ _ (by rw [List.length_singleton]; omega) h)

/-- A frame that fits keeps TX in canonical form. -/
theorem wf_codedTx {s : State} (hc : totalLen s ≤ s.cfg.cap) (h : Memory.wf Buf.tx.blank s.cfg.cap s.tx) :
    Memory.wf Buf.tx.blank s.cfg.cap (codedTx s) := by
  have hplain : (framedBody s ++ crcPlaceholder).length = totalLen s := by
    rw [List.length_append, framedBody_length]
    rfl
  have hcoded := codedFrame_length s
  exact wf_writeAll _ _ _ _ _ (by omega) (wf_writeAll _ _ _ _ _ (by omega) h)

/-! ### The invariant over an operation (R35) -/

section
variable {s : State} (h : Inv s)
include h

/-- The invariant does not speak of the responses. -/
theorem Inv.respond (st : Status) (r : List Byte) : Inv (s.respond st r) := { h with }

/-- The invariant does not speak of the channel index. -/
theorem Inv.hop : Inv s.hop := { h with }

theorem Inv.applyReset : Inv s.applyReset := { inv_initial h.legal with }

/-- SETADDR writes below the name field only (R180). -/
theorem Inv.writeAddress (a : DevAddr) :
    Inv { s with addr := a, fb := Memory.writeAll Buf.fb.blank s.fb 2 (addrField a) } := by
  have hlen : (addrField a).length = 6 := rfl
  have hcap := h.legal.1
  have hwf := wf_writeAll Buf.fb.blank s.cfg.cap (addrField a) s.fb 2 (by omega) h.fbWf
  have hfixed := h.fixedBytes.writeAddr a
  have hkeep : ∀ j, 8 ≤ j →
      Memory.read Buf.fb.blank (Memory.writeAll Buf.fb.blank s.fb 2 (addrField a)) j = s.byteAt .fb j :=
    fun j hj => read_writeAll_of_not _ _ _ _ _ (by omega)
  exact { h with
    fbWf := hwf
    header := hfixed.header
    address := hfixed.address
    flags := hfixed.flags
    nameField := fun hn =>
      ⟨(hkeep 11 (by decide)).trans (h.nameField hn).1, (hkeep 12 (by decide)).trans (h.nameField hn).2⟩
    dataField := fun hd =>
      ⟨(hkeep _ (by omega)).trans (h.dataField hd).1, (hkeep _ (by omega)).trans (h.dataField hd).2⟩ }

/-- SETNAME writes from the name field on and leaves no data field (R181). -/
theorem Inv.writeName (t : List Byte) (ht : t.length + 16 ≤ s.cfg.cap) :
    Inv { s with
      fb := Memory.writeAll Buf.fb.blank s.fb 11 (nameBytes s.cfg.cap t)
      nameSet := true
      nameLen := t.length
      dataSet := false
      dataLen := 0
      remain := s.cfg.cap - 16 - t.length } := by
  have hlen := nameBytes_length s.cfg.cap t (by omega)
  have hwf := wf_writeAll Buf.fb.blank s.cfg.cap (nameBytes s.cfg.cap t) s.fb 11 (by omega) h.fbWf
  have hfixed := h.fixedBytes.of_agree (m' := Memory.writeAll Buf.fb.blank s.fb 11 (nameBytes s.cfg.cap t))
    fun j _ hj => read_writeAll_of_not _ _ _ _ _ (.inl hj)
  have hfield : ∀ k, k < 2 → Memory.read Buf.fb.blank (Memory.writeAll Buf.fb.blank s.fb 11 (nameBytes s.cfg.cap t))
      (11 + k) = (nameBytes s.cfg.cap t)[k]? := fun k hk => by
    rw [read_writeAll, if_pos (by omega), Nat.add_sub_cancel_left]
  exact { h with
    fbWf := hwf
    noName := fun hn => nomatch hn
    name := fun _ => ⟨show t.length ≤ s.cfg.cap - 16 by omega, rfl⟩
    data := fun hd => nomatch hd
    noData := fun _ => rfl
    header := hfixed.header
    address := hfixed.address
    flags := hfixed.flags
    nameField := fun _ => ⟨hfield 0 (by decide), hfield 1 (by decide)⟩
    dataField := fun hd => nomatch hd }

/-- An accepted data field stands after the name field and inside the buffer (R182). -/
theorem Inv.writeData (x : List Byte) (hn : s.nameSet = true) (hd : x.length ≤ s.remain) :
    Inv (dataWritten x s) := by
  have hfits := h.dataField_fits hn hd
  have hlen : (adStructure adData x).length = x.length + 2 := rfl
  have hwf := wf_writeAll Buf.fb.blank s.cfg.cap (adStructure adData x) s.fb (13 + s.nameLen) (by omega) h.fbWf
  have hkeep : ∀ j, j < 13 → (dataWritten x s).byteAt .fb j = s.byteAt .fb j :=
    fun j hj => read_writeAll_of_not _ _ _ _ _ (by omega)
  have hfield : ∀ k, k < 2 → (dataWritten x s).byteAt .fb (13 + s.nameLen + k) = (adStructure adData x)[k]? :=
    fun k hk => by
      rw [State.byteAt, mem_fb, dataWritten_fb, read_writeAll, if_pos (by omega), Nat.add_sub_cancel_left]
  have hfixed := h.fixedBytes.of_agree (m' := (dataWritten x s).fb) fun j _ hj => hkeep j (by omega)
  exact { h with
    fbWf := hwf
    noName := fun hn' => absurd (hn.symm.trans hn') (by decide)
    data := fun _ => ⟨hn, hd⟩
    noData := fun hd' => nomatch hd'
    header := hfixed.header
    address := hfixed.address
    flags := hfixed.flags
    nameField := fun _ =>
      ⟨(hkeep 11 (by decide)).trans (h.nameField hn).1, (hkeep 12 (by decide)).trans (h.nameField hn).2⟩
    dataField := fun _ => ⟨hfield 0 (by decide), by
      rw [dataWritten_nameLen, show 14 + s.nameLen = 13 + s.nameLen + 1 by omega]
      exact hfield 1 (by decide)⟩ }

/-- Every byte the invariant speaks of stands below the placeholder, so a transmission keeps it (R210, R52). -/
theorem Inv.transmit (hc : totalLen s ≤ s.cfg.cap) : Inv (transmitted s) := by
  have hname : s.nameSet = true → 11 + s.nameLen ≤ currentLength s := fun hn => by
    rw [currentLength, if_pos hn]
    omega
  have hdata : s.dataSet = true → 13 + s.nameLen ≤ currentLength s := fun hd => by
    rw [currentLength, if_pos (h.data hd).1, if_pos hd]
    omega
  have hnine : 9 ≤ currentLength s := by rw [currentLength]; omega
  have hfixed := h.fixedBytes.of_agree (m' := (transmitted s).fb)
    fun j h1 hj => byteAt_transmitted h1 (by omega)
  exact { h with
    fbWf := wf_framedFb hc h.fbWf
    txWf := wf_codedTx hc h.txWf
    header := hfixed.header
    address := hfixed.address
    flags := hfixed.flags
    nameField := fun hn => by
      have := hname hn
      exact ⟨(byteAt_transmitted (by decide) (by omega)).trans (h.nameField hn).1,
        (byteAt_transmitted (by decide) (by omega)).trans (h.nameField hn).2⟩
    dataField := fun hd => by
      have := hdata hd
      have hlen : (transmitted s).nameLen = s.nameLen := rfl
      exact ⟨(byteAt_transmitted (by omega) (by omega)).trans (h.dataField hd).1,
        (byteAt_transmitted (by omega) (by omega)).trans (h.dataField hd).2⟩ }

/-- Every effect an operation can have keeps the invariant. -/
theorem Inv.effect {i : Instr} {t : State} (ht : Effect s i t) : Inv t := by
  cases ht with
  | answered r _ => exact h.respond _ _
  | declined st _ _ => exact h.respond _ _
  | advanced => exact h.hop.respond _ _
  | addressed a => exact (h.writeAddress a).respond _ _
  | named t ht => exact (h.writeName t ht).respond _ _
  | dataSet x hn hd => exact (h.writeData x hn hd).respond _ _
  | sent hc => exact (h.transmit hc).respond _ _
  | dataSent x hn hd hc => exact ((h.writeData x hn hd).transmit hc).respond _ _
  | dataNotSent x hn hd _ => exact (h.writeData x hn hd).respond _ _

end

/-- Settles O47: a step is idle, a reset, a decline, or an operation with one of its effects, and each keeps R35. -/
theorem stepKeepsInvariant : Obligations.StepKeepsInvariant := by
  intro s t h hstep
  rcases step_cases s with ⟨-, hs⟩ | ⟨more, -, hs⟩ | ⟨more, -, hs⟩ | ⟨_, more, i, rest, -, -, hs⟩ |
    ⟨bytes, more, _, -, -, hs⟩ | ⟨_, more, _, -, -, hs⟩ <;> rw [hs] at hstep
  case inr.inr.inr.inl => exact (h.withInputs _).effect (exec_effect i _ t hstep)
  all_goals cases hstep
  case inl => exact h
  case inr.inl => exact (h.withInputs more).applyReset
  case inr.inr.inl => exact h.withInputs more
  case inr.inr.inr.inr.inl => exact (h.withInputs _).respond _ _
  case inr.inr.inr.inr.inr => exact (h.withInputs _).respond _ _

/-! ### Which operation writes which item (R20) -/

/-- Settles O50: table S read off the effects, item by item. -/
theorem onlyListedOperationsWrite : Obligations.OnlyListedOperationsWrite := by
  intro i s t h
  cases exec_effect i s t h with
  -- the responses only
  | answered | declined => simp
  -- the channel index
  | advanced => simp
  -- FB and registers
  | addressed | named | dataSet | dataNotSent => simp
  -- FB, TX and registers
  | sent | dataSent => simp

/-! ### What no step reads: TX and the histories (R22, R34) -/

/-- The state with other outputs: another content of TX and other histories. -/
def State.withOutputs (s : State) (m : Memory) (rs : List (List Byte)) (cs : List RadioCall) : State :=
  { s with tx := m, responses := rs, radio := cs }

@[simp] theorem withOutputs_inputs (s : State) (m : Memory) (rs : List (List Byte)) (cs : List RadioCall) :
    (s.withOutputs m rs cs).inputs = s.inputs := rfl

/-- `run` answers `t` from `s` without reading the outputs: whatever they are, the answer is `t` but for them, TX is a
function of TX alone, and what the histories gain is always the same. -/
def AnswersBlindly (run : State → Outcome) (s t : State) : Prop :=
  ∃ (w : Memory → Memory) (rs : List (List Byte)) (cs : List RadioCall), ∀ m rs₀ cs₀,
    run (s.withOutputs m rs₀ cs₀) = .next (t.withOutputs (w m) (rs₀ ++ rs) (cs₀ ++ cs))

/-- A response only appends to the history. -/
theorem respond_withOutputs (u : State) (st : Status) (r : List Byte) (m : Memory) (rs : List (List Byte))
    (cs : List RadioCall) :
    (u.withOutputs m rs cs).respond st r = (u.respond st r).withOutputs m (rs ++ [st.code :: r]) (cs ++ []) := by
  rw [List.append_nil]
  rfl

/-- To answer from a state that never depended on the outputs is to answer blindly. -/
theorem answersBlindly_of_respond {run : State → Outcome} {s u : State} (st : Status) (r : List Byte)
    (h : ∀ m rs cs, run (s.withOutputs m rs cs) = .next ((u.withOutputs m rs cs).respond st r)) :
    AnswersBlindly run s (u.respond st r) :=
  ⟨id, [st.code :: r], [], fun m rs cs => by rw [h, respond_withOutputs]; rfl⟩

/-- Writing to FB does not depend on the outputs. -/
theorem memWrite_fb_withOutputs (vs : List Byte) (i : Nat) (s : State) (m : Memory) (rs : List (List Byte))
    (cs : List RadioCall) :
    memWrite .fb i vs (s.withOutputs m rs cs) = (memWrite .fb i vs s).map (·.withOutputs m rs cs) := by
  induction vs generalizing i s with
  | nil => rfl
  | cons v vs ih =>
    by_cases hi : i < s.cfg.cap
    · have hi' : i < (s.withOutputs m rs cs).cfg.cap := hi
      simp only [memWrite, writeByte, if_pos hi, if_pos hi', bind, Except.bind]
      exact ih (i + 1) (s.setMem .fb (Memory.write Buf.fb.blank s.fb i v))
    · have hi' : ¬ i < (s.withOutputs m rs cs).cfg.cap := hi
      simp only [memWrite, writeByte, if_neg hi, if_neg hi', bind, Except.bind]
      rfl

/-- SETADDR's procedure does not depend on the outputs. -/
theorem setAddress_withOutputs (a : DevAddr) (s : State) (m : Memory) (rs : List (List Byte)) (cs : List RadioCall) :
    setAddress a (s.withOutputs m rs cs) = (setAddress a s).map (·.withOutputs m rs cs) :=
  memWrite_fb_withOutputs (addrField a) 2 { s with addr := a } m rs cs

/-- SETNAME's procedure does not depend on the outputs. -/
theorem setName_withOutputs (n : List Byte) (s : State) (m : Memory) (rs : List (List Byte)) (cs : List RadioCall) :
    setName n (s.withOutputs m rs cs) = (setName n s).map (·.withOutputs m rs cs) := by
  rcases Nat.lt_or_ge s.cfg.cap (n.length + 16) with hc | hc
  · rw [setName_declined n s hc, setName_declined n (s.withOutputs m rs cs) hc]
    rfl
  · rw [setName_accepted n s hc, setName_accepted n (s.withOutputs m rs cs) hc]
    rfl

/-- SETDATA's procedure past its two tests: the write and the registers (R182). -/
theorem setData_admitted (x : List Byte) (s : State) (hn : s.nameSet = true) (hd : x.length ≤ s.remain) :
    setData x s = (memWrite .fb (dataStart s) (adStructure adData x) s).map
      fun u => { u with dataSet := true, dataLen := x.length } := by
  have hlong : dataTooLong s x.length = false := decide_eq_false (by omega)
  rw [setData, if_pos hn, hlong, if_neg (by decide)]
  cases memWrite .fb (dataStart s) (adStructure adData x) s <;> rfl

/-- SETDATA's procedure does not depend on the outputs. -/
theorem setData_withOutputs (x : List Byte) (s : State) (m : Memory) (rs : List (List Byte)) (cs : List RadioCall) :
    setData x (s.withOutputs m rs cs) = (setData x s).map (·.withOutputs m rs cs) := by
  cases hn : s.nameSet with
  | false =>
    rw [setData_noName x s hn, setData_noName x (s.withOutputs m rs cs) hn]
    rfl
  | true =>
    rcases Nat.lt_or_ge s.remain x.length with hd | hd
    · rw [setData_tooLong x s hn hd, setData_tooLong x (s.withOutputs m rs cs) hn hd]
      rfl
    · have hw := memWrite_fb_withOutputs (adStructure adData x) (dataStart s) s m rs cs
      rw [setData_admitted x s hn hd, setData_admitted x (s.withOutputs m rs cs) hn hd]
      rw [show dataStart (s.withOutputs m rs cs) = dataStart s from rfl, hw]
      cases memWrite .fb (dataStart s) (adStructure adData x) s <;> rfl

/-- What a procedure answers is answered blindly, when the procedure does not depend on the outputs. -/
theorem finish_answersBlindly {p : State → Except Stop State} {s t : State}
    (hp : ∀ m rs cs, p (s.withOutputs m rs cs) = (p s).map (·.withOutputs m rs cs)) (h : finish s (p s) = .next t) :
    AnswersBlindly (fun u => finish u (p u)) s t := by
  cases hps : p s with
  | ok u =>
    rw [hps] at h
    cases h
    exact answersBlindly_of_respond .ok [] fun m rs cs => by rw [hp, hps]; rfl
  | error e =>
    rw [hps] at h
    cases e with
    | raised st =>
      cases h
      exact answersBlindly_of_respond st [] fun m rs cs => by rw [hp, hps]; rfl
    | fault f => cases h

/-- SETNAME answers blindly (R181). -/
theorem execSetname_answersBlindly {n : List Byte} {s t : State} (h : execSetname n s = .next t) :
    AnswersBlindly (execSetname n) s t := by
  cases hn : setName n s with
  | ok u =>
    rw [execSetname, hn] at h
    cases h
    exact answersBlindly_of_respond .ok _ fun m rs cs => by rw [execSetname, setName_withOutputs, hn]; rfl
  | error e =>
    obtain ⟨rfl, -⟩ := setName_error n s e hn
    rw [execSetname, hn] at h
    cases h
    exact answersBlindly_of_respond .capacityExceeded [] fun m rs cs => by
      rw [execSetname, setName_withOutputs, hn]; rfl

/-- ENCODE answers blindly (R150, R154). -/
theorem execEncode_answersBlindly {ch : Byte} {p : List Byte} {s t : State} (h : execEncode ch p s = .next t) :
    AnswersBlindly (execEncode ch p) s t := by
  cases hp : encodePacket p ch with
  | some q =>
    rw [execEncode, hp] at h
    cases h
    exact answersBlindly_of_respond .ok q fun m rs cs => by rw [execEncode, hp]
  | none =>
    rw [execEncode, hp] at h
    cases h
    exact answersBlindly_of_respond .badOperand [] fun m rs cs => by rw [execEncode, hp]; rfl

/-- The frame a transmission sends is made of FB and registers only: TX is overwritten before it is read, and the calls
are the same whatever TX and the histories hold (R22, R210). -/
theorem transmitted_withOutputs (s : State) (m : Memory) (rs : List (List Byte)) (cs : List RadioCall) :
    transmitted (s.withOutputs m rs cs) = (transmitted s).withOutputs (codedTx (s.setMem .tx m)) rs
      (cs ++ radioCalls s.cfg (chFreq s.chidx) (codedFrame s)) := rfl

/-- TXONCE answers blindly (R210, R213). -/
theorem execTxonce_answersBlindly {s t : State} (h : execTxonce s = .next t) : AnswersBlindly execTxonce s t := by
  rcases Nat.lt_or_ge s.cfg.cap (totalLen s) with hc | hc
  · rw [execTxonce, transmitOnce_overrun s hc] at h
    cases h
    exact answersBlindly_of_respond .frameOverrun [] fun m rs cs => by
      rw [execTxonce, transmitOnce_overrun (s.withOutputs m rs cs) hc]; rfl
  · rw [execTxonce, transmitOnce_fits s hc] at h
    cases h
    refine ⟨fun m => codedTx (s.setMem .tx m), [[Status.ok.code]], radioCalls s.cfg (chFreq s.chidx) (codedFrame s),
      fun m rs cs => ?_⟩
    have ht : transmitOnce (s.withOutputs m rs cs) = .ok (transmitted (s.withOutputs m rs cs)) :=
      transmitOnce_fits (s.withOutputs m rs cs) hc
    rw [execTxonce, ht, transmitted_withOutputs]
    rfl

/-- SENDDATA answers blindly: it is SETDATA's procedure, then TXONCE from what that left (R211). -/
theorem execSenddata_answersBlindly {x : List Byte} {s t : State} (h : execSenddata x s = .next t) :
    AnswersBlindly (execSenddata x) s t := by
  cases hx : setData x s with
  | ok u =>
    have hthen : ∀ m rs cs, execSenddata x (s.withOutputs m rs cs) = execTxonce (u.withOutputs m rs cs) :=
      fun m rs cs => by rw [execSenddata, setData_withOutputs, hx]; rfl
    rw [execSenddata, hx] at h
    obtain ⟨w, rs, cs, hw⟩ := execTxonce_answersBlindly (s := u) h
    exact ⟨w, rs, cs, fun m rs₀ cs₀ => (hthen m rs₀ cs₀).trans (hw m rs₀ cs₀)⟩
  | error e =>
    rw [execSenddata, hx] at h
    cases e with
    | raised st =>
      cases h
      exact answersBlindly_of_respond st [] fun m rs cs => by rw [execSenddata, setData_withOutputs, hx]; rfl
    | fault f => cases h

/-- Every operation answers blindly. -/
theorem exec_answersBlindly {i : Instr} {s t : State} (h : exec i s = .next t) : AnswersBlindly (exec i) s t := by
  cases i with
  | revb _ | wseed _ | crc24 _ _ _ _ | whiten _ _ | advance | curlen =>
    cases h
    exact answersBlindly_of_respond .ok _ fun _ _ _ => rfl
  | encode ch p => exact execEncode_answersBlindly h
  | setaddr a0 a1 a2 a3 a4 a5 => exact finish_answersBlindly (setAddress_withOutputs _ s) h
  | setname n => exact execSetname_answersBlindly h
  | setdata x => exact finish_answersBlindly (setData_withOutputs x s) h
  | txonce => exact execTxonce_answersBlindly h
  | senddata x => exact execSenddata_answersBlindly h

/-- The fetched thing with another state to run it in. -/
def Fetched.map (f : State → State) : Fetched → Fetched
  | .idle s => .idle (f s)
  | .rst s => .rst (f s)
  | .run i s => .run i (f s)
  | .decline st s => .decline st (f s)

/-- What the host does next is taken from the pending inputs alone. -/
theorem fetch_withOutputs (s : State) (m : Memory) (rs : List (List Byte)) (cs : List RadioCall) :
    fetch (s.withOutputs m rs cs) = (fetch s).map (·.withOutputs m rs cs) := by
  simp only [fetch, withOutputs_inputs]
  rcases s.inputs with _ | ⟨bytes | _, more⟩
  · rfl
  · rcases hdec : decode bytes with _ | (_ | _ | _) <;> simp only [hdec] <;> rfl
  · rfl

/-- Every step answers blindly. -/
theorem step_answersBlindly {s t : State} (h : step s = .next t) : AnswersBlindly step s t := by
  cases hf : fetch s with
  | idle u =>
    rw [step, hf] at h
    cases h
    exact ⟨id, [], [], fun m rs cs => by rw [step, fetch_withOutputs, hf, List.append_nil, List.append_nil]; rfl⟩
  | rst u =>
    rw [step, hf] at h
    cases h
    exact ⟨fun _ => [], [], [], fun m rs cs => by
      rw [step, fetch_withOutputs, hf, List.append_nil, List.append_nil]; rfl⟩
  | run i u =>
    rw [step, hf] at h
    obtain ⟨w, rs, cs, hw⟩ := exec_answersBlindly h
    exact ⟨w, rs, cs, fun m rs₀ cs₀ => by rw [step, fetch_withOutputs, hf]; exact hw m rs₀ cs₀⟩
  | decline st u =>
    rw [step, hf] at h
    cases h
    exact answersBlindly_of_respond st [] fun m rs cs => by rw [step, fetch_withOutputs, hf]; rfl

/-- What a blind answer says of the state itself: read off at its own TX and histories. -/
theorem outputs_of_blind {s t : State} {w : Memory → Memory} {rs : List (List Byte)} {cs : List RadioCall}
    (h : step s = .next t)
    (hstep : ∀ m rs₀ cs₀, step (s.withOutputs m rs₀ cs₀) = .next (t.withOutputs (w m) (rs₀ ++ rs) (cs₀ ++ cs))) :
    t.tx = w s.tx ∧ t.responses = s.responses ++ rs ∧ t.radio = s.radio ++ cs := by
  have hself : t = t.withOutputs (w s.tx) (s.responses ++ rs) (s.radio ++ cs) :=
    Host.Outcome.next.inj (h.symm.trans (hstep s.tx s.responses s.radio))
  exact ⟨congrArg State.tx hself, congrArg State.responses hself, congrArg State.radio hself⟩

/-- Settles O51: TX alone is exchanged, the histories stay what they are. -/
theorem txContentIsNeverRead : Obligations.TxContentIsNeverRead := by
  intro s t m h
  obtain ⟨w, rs, cs, hstep⟩ := step_answersBlindly h
  obtain ⟨-, hresponses, hradio⟩ := outputs_of_blind h hstep
  have hm := hstep m s.responses s.radio
  rw [← hresponses, ← hradio] at hm
  exact ⟨w m, hm⟩

/-- Settles O52: the histories alone are exchanged, TX stays what it is. -/
theorem historiesAreNeverRead : Obligations.HistoriesAreNeverRead := by
  intro s t rs₀ cs₀ h
  obtain ⟨w, rs, cs, hstep⟩ := step_answersBlindly h
  obtain ⟨htx, hresponses, hradio⟩ := outputs_of_blind h hstep
  have hm := hstep s.tx rs₀ cs₀
  rw [← htx] at hm
  exact ⟨rs, cs, hresponses, hradio, hm⟩

end Sys2Proof.Machine
end

section
/-! PROOFS. Memory (20_memory.md): what the canonical form of a buffer says of its listed cells, and that the content of
the index spaces (R50, R57) determines the buffer. -/

namespace Sys2Proof.Machine

/-- With rising indices no cell is hidden behind an earlier one, so the lookup finds exactly the listed cells. -/
theorem cellAt_eq_some_iff_mem {m : Memory} (h : m.Pairwise (fun c d => c.1 < d.1)) (i : Nat) (b : Byte) :
    Memory.cellAt m i = some b ↔ (i, b) ∈ m := by
  induction m with
  | nil => simp [Memory.cellAt]
  | cons c rest ih =>
    obtain ⟨k, v⟩ := c
    obtain ⟨hlater, hrest⟩ := List.pairwise_cons.1 h
    rw [Memory.cellAt, List.mem_cons, Prod.mk.injEq]
    by_cases hk : k = i
    · have hnot : (i, b) ∉ rest := fun hmem => (hlater _ hmem).ne hk
      simp [hk, hnot, eq_comm]
    · rw [if_neg hk, ih hrest]
      simp [Ne.symm hk]

/-- The listed cells of a canonical buffer, told by its reads alone: a byte is listed exactly when it is read and is not
what an unlisted index reads as. -/
theorem mem_iff_read_of_wf {blank : Option Byte} {cap : Nat} {m : Memory} (h : Memory.wf blank cap m) (i : Nat)
    (b : Byte) : (i, b) ∈ m ↔ Memory.read blank m i = some b ∧ blank ≠ some b := by
  obtain ⟨hrising, hcells⟩ := h
  have hblank : (i, b) ∈ m → blank ≠ some b := fun hmem => (hcells _ hmem).1
  rw [← cellAt_eq_some_iff_mem hrising] at hblank ⊢
  cases blank with
  | none => simp [Memory.read]
  | some d =>
    cases hcell : Memory.cellAt m i with
    | none => simp [Memory.read, hcell]
    | some v =>
      rw [hcell] at hblank
      simpa [Memory.read, hcell] using hblank

/-- Two lists of cells with rising indices and the same cells are the same list. -/
theorem eq_of_rising_of_mem_iff {m n : Memory} (hm : m.Pairwise (fun c d => c.1 < d.1))
    (hn : n.Pairwise (fun c d => c.1 < d.1)) (h : ∀ c, c ∈ m ↔ c ∈ n) : m = n :=
  have : Std.Irrefl (fun c d : Host.Cell => c.1 < d.1) := ⟨fun c => Nat.lt_irrefl c.1⟩
  have : Std.Antisymm (fun c d : Host.Cell => c.1 < d.1) := ⟨fun _ _ hcd hdc => absurd hdc (Nat.lt_asymm hcd)⟩
  hm.eq_of_mem_iff hn h

/-- Settles O54: the reads tell the cells, and the rising order leaves one list for them. -/
theorem buffersThatReadAlikeAreEqual : Obligations.BuffersThatReadAlikeAreEqual := by
  intro blank cap m n hm hn hread
  refine eq_of_rising_of_mem_iff hm.1 hn.1 fun ⟨i, b⟩ => ?_
  rw [mem_iff_read_of_wf hm, mem_iff_read_of_wf hn, hread]

end Sys2Proof.Machine
end

section
/-! PROOFS. Encoding (30_encoding.md): a byte string decodes to an operation exactly when it begins with that operation's
frame (R70 to R72), which opcodes are reserved (R75, R76), when a frame is cut short (R77), and what a step answers to a
reserved opcode and to a frame cut short. -/

namespace Sys2Proof

/-! ### The decoder reads back what the encoder writes (R70 to R72) -/

/-- Format `V` reads a counted byte string. -/
theorem operandsV_counted (k : List Byte → Instr) {d : List Byte} (hd : fitsLen d = true) (rest : List Byte) :
    operandsV k (counted d ++ rest) = some (k d, rest) := by
  simp only [counted, List.cons_append, operandsV, toNat_len d hd, takeExact_append]

/-- The format of a well-formed operation reads its operand bytes, whatever follows them. -/
theorem operandsOf_opcode {i : Instr} (hi : i.wf = true) (rest : List Byte) :
    ∃ f, operandsOf (opcode i) = some f ∧ f (operandBytes i ++ rest) = some (i, rest) := by
  cases i with
  | revb _ | wseed _ | advance | setaddr _ _ _ _ _ _ | curlen | txonce => exact ⟨_, rfl, rfl⟩
  | crc24 _ _ _ _ | whiten _ _ | encode _ _ | setname _ | setdata _ | senddata _ =>
    exact ⟨_, rfl, operandsV_counted _ hi rest⟩

theorem decode_encode {i : Instr} (hi : i.wf = true) (rest : List Byte) :
    decode (encode i ++ rest) = .frame i rest := by
  obtain ⟨f, hop, hf⟩ := operandsOf_opcode hi rest
  simp only [encode, List.cons_append, decode, hop, hf]

/-- Settles O1: an operation's format reads its own operand bytes, a byte string by its `len` byte. -/
theorem decodeOfEncodedFrame : Obligations.DecodeOfEncodedFrame :=
  fun _ rest hi => decode_encode hi rest

/-- Settles O3: the written frames are those of the encoder. -/
theorem writtenFramesDecode : Obligations.WrittenFramesDecode :=
  ⟨decode_encode (i := .revb 0x25) rfl [], decode_encode (i := .wseed 0x25) rfl [],
    decode_encode (i := .crc24 0x55 0x56 0x57 [0x42]) rfl [], decode_encode (i := .whiten 0xA6 [0x42, 0x12]) rfl [],
    decode_encode (i := .encode 0x26 [0x55, 0x56, 0x57]) rfl [], decode_encode (i := .advance) rfl [0x13],
    decode_encode (i := .setaddr 0x01 0x23 0x45 0x67 0x89 0xAB) rfl [],
    decode_encode (i := .setname [0x54, 0x61, 0x67]) rfl [], decode_encode (i := .setdata [0x01, 0x02]) rfl [],
    decode_encode (i := .curlen) rfl [], decode_encode (i := .txonce) rfl [],
    decode_encode (i := .senddata [0x01, 0x02]) rfl []⟩

/-! ### The decoder accepts nothing else: what each operand format can have read (R71) -/

section
variable {i : Instr} {r rest : List Byte}

theorem operandsN_some {k : Instr} (h : operandsN k r = some (i, rest)) : i = k ∧ r = rest := by
  cases h
  exact ⟨rfl, rfl⟩

theorem operandsB_some {k : Byte → Instr} (h : operandsB k r = some (i, rest)) : ∃ b, i = k b ∧ r = b :: rest := by
  cases r with
  | nil => cases h
  | cons b r =>
    cases h
    exact ⟨b, rfl, rfl⟩

theorem operandsA6_some {k : Byte → Byte → Byte → Byte → Byte → Byte → Instr}
    (h : operandsA6 k r = some (i, rest)) :
    ∃ a0 a1 a2 a3 a4 a5, i = k a0 a1 a2 a3 a4 a5 ∧ r = a0 :: a1 :: a2 :: a3 :: a4 :: a5 :: rest := by
  unfold operandsA6 at h
  split at h
  · cases h
    exact ⟨_, _, _, _, _, _, rfl, rfl⟩
  · cases h

theorem operandsV_some {k : List Byte → Instr} (h : operandsV k r = some (i, rest)) :
    ∃ d, fitsLen d = true ∧ i = k d ∧ r = counted d ++ rest := by
  cases r with
  | nil => cases h
  | cons len r =>
    rw [operandsV] at h
    split at h
    case h_2 => cases h
    case h_1 d rest' htake =>
      cases h
      obtain ⟨rfl, hlen⟩ := takeExact_some _ _ _ _ htake
      refine ⟨d, decide_eq_true (hlen ▸ Nat.le_of_lt_succ len.isLt), rfl, ?_⟩
      rw [counted, hlen, BitVec.ofNat_toNat, BitVec.setWidth_eq, List.cons_append]

theorem operandsKV_some {k : Byte → List Byte → Instr} (h : operandsKV k r = some (i, rest)) :
    ∃ b d, fitsLen d = true ∧ i = k b d ∧ r = b :: counted d ++ rest := by
  cases r with
  | nil => cases h
  | cons b r =>
    obtain ⟨d, hd, rfl, rfl⟩ := operandsV_some h
    exact ⟨b, d, hd, rfl, rfl⟩

theorem operandsCV_some {k : Byte → Byte → Byte → List Byte → Instr} (h : operandsCV k r = some (i, rest)) :
    ∃ c0 c1 c2 d, fitsLen d = true ∧ i = k c0 c1 c2 d ∧ r = c0 :: c1 :: c2 :: counted d ++ rest := by
  unfold operandsCV at h
  split at h
  · obtain ⟨d, hd, rfl, rfl⟩ := operandsV_some h
    exact ⟨_, _, _, d, hd, rfl, rfl⟩
  · cases h

/-- What the format of an opcode reads is the operand bytes of a well-formed operation of that opcode. One case per row of
table O (R75), rows of one format together. -/
theorem operandsOf_some {op : Byte} {f : List Byte → Option (Instr × List Byte)} (hop : operandsOf op = some f)
    (hf : f r = some (i, rest)) : i.wf = true ∧ opcode i = op ∧ r = operandBytes i ++ rest := by
  unfold operandsOf at hop
  split at hop <;> cases hop
  case h_1 | h_2 =>
    obtain ⟨b, rfl, rfl⟩ := operandsB_some hf
    exact ⟨rfl, rfl, rfl⟩
  case h_3 =>
    obtain ⟨c0, c1, c2, d, hd, rfl, rfl⟩ := operandsCV_some hf
    exact ⟨hd, rfl, rfl⟩
  case h_4 | h_5 =>
    obtain ⟨b, d, hd, rfl, rfl⟩ := operandsKV_some hf
    exact ⟨hd, rfl, rfl⟩
  case h_6 | h_10 | h_11 =>
    obtain ⟨rfl, rfl⟩ := operandsN_some hf
    exact ⟨rfl, rfl, rfl⟩
  case h_7 =>
    obtain ⟨a0, a1, a2, a3, a4, a5, rfl, rfl⟩ := operandsA6_some hf
    exact ⟨rfl, rfl, rfl⟩
  case h_8 | h_9 | h_12 =>
    obtain ⟨d, hd, rfl, rfl⟩ := operandsV_some hf
    exact ⟨hd, rfl, rfl⟩

end

end Sys2Proof

namespace Sys2Proof.Machine

/-! ### What the decoder answers to a first byte (R70, R75 to R77) -/

/-- Table O is the decoder's table. -/
theorem isSome_operandsOf (op : Byte) : (operandsOf op).isSome = isOpcode op := by
  revert op
  decide

/-- The three answers to a byte string that is not empty: a reserved opcode, a frame cut short, or the frame of a
well-formed operation and the bytes behind it. -/
theorem decode_cons_cases (op : Byte) (r : List Byte) :
    (isOpcode op = false ∧ decode (op :: r) = .rejected (.reservedOpcode op)) ∨
      (isOpcode op = true ∧ decode (op :: r) = .rejected (.cutShort op)) ∨
      (isOpcode op = true ∧ ∃ i rest, decode (op :: r) = .frame i rest ∧ i.wf = true ∧ op :: r = encode i ++ rest) := by
  rw [← isSome_operandsOf, decode]
  cases hop : operandsOf op with
  | none => exact .inl ⟨rfl, rfl⟩
  | some f =>
    cases hf : f r with
    | none => exact .inr (.inl ⟨rfl, by simp only [hf]⟩)
    | some p =>
      obtain ⟨i, rest⟩ := p
      obtain ⟨hi, rfl, rfl⟩ := operandsOf_some hop hf
      exact .inr (.inr ⟨rfl, i, rest, by simp only [hf], hi, rfl⟩)

/-- A byte string decodes to an operation exactly when it is that operation's frame and then the rest. -/
theorem decode_eq_frame_iff {bytes : List Byte} {i : Instr} {rest : List Byte} :
    decode bytes = .frame i rest ↔ i.wf = true ∧ bytes = encode i ++ rest := by
  constructor
  · intro h
    obtain ⟨op, r, rfl⟩ := exists_cons_of_decode_ne_empty (bytes := bytes) (by simp [h])
    rcases decode_cons_cases op r with ⟨-, hd⟩ | ⟨-, hd⟩ | ⟨-, j, rest', hd, hj, heq⟩ <;> rw [hd] at h <;> cases h
    exact ⟨hj, heq⟩
  · rintro ⟨hi, rfl⟩
    exact decode_encode hi rest

/-- Settles O2: each format accepts only the operand bytes of an operation, a byte string of at most 255 bytes behind
its own length. -/
theorem decodedBytesAreItsFrame : Obligations.DecodedBytesAreItsFrame :=
  fun _ _ _ h => decode_eq_frame_iff.1 h

theorem decode_eq_reservedOpcode_iff {op : Byte} {r : List Byte} :
    decode (op :: r) = .rejected (.reservedOpcode op) ↔ isOpcode op = false := by
  rcases decode_cons_cases op r with ⟨hop, hd⟩ | ⟨hop, hd⟩ | ⟨hop, i, rest, hd, -⟩ <;> simp [hop, hd]

theorem decode_eq_cutShort_iff {op : Byte} {r : List Byte} :
    decode (op :: r) = .rejected (.cutShort op) ↔ isOpcode op = true ∧ ∀ i rest, decode (op :: r) ≠ .frame i rest := by
  rcases decode_cons_cases op r with ⟨hop, hd⟩ | ⟨hop, hd⟩ | ⟨hop, i, rest, hd, -⟩ <;> simp [hop, hd]

/-- Settles O5: beginning with a whole frame is decoding to an operation. -/
theorem cutShortIsNoWholeFrame : Obligations.CutShortIsNoWholeFrame := by
  intro op r
  simp only [decode_eq_cutShort_iff, ne_eq, decode_eq_frame_iff, not_and]

/-- Settles O4: the opcodes outside the two ranges of table O. -/
theorem reservedOpcodesAreThose : Obligations.ReservedOpcodesAreThose := by
  intro op r
  rw [decode_eq_reservedOpcode_iff]
  simp only [isOpcode, Bool.or_eq_false_iff, Bool.and_eq_false_iff, decide_eq_false_iff_not]
  omega

/-! ### What a step answers to them (R76, R77) -/

/-- Settles O8: the step declines the reserved opcode, and the bytes behind it stay pending. -/
theorem reservedOpcodeAnsweredWithoutEffect : Obligations.ReservedOpcodeAnsweredWithoutEffect := by
  intro s op r more hin hop
  have hfetch : fetch s = .decline .badOpcode (s.withInputs (requeue r more)) := by
    simp only [fetch, hin, decode_eq_reservedOpcode_iff.2 hop, List.tail_cons]
  rw [step, hfetch, requeue_eq]
  rfl

/-- Settles O9: the step declines the frame cut short, which takes the rest of its transmission with it. -/
theorem cutFrameAnsweredWithoutEffect : Obligations.CutFrameAnsweredWithoutEffect := by
  intro s op bytes more hin hdec
  have hfetch : fetch s = .decline .badOperand (s.withInputs more) := by simp only [fetch, hin, hdec]
  rw [step, hfetch]
  rfl

/-- Settles O11: by the definition of `Status.code`. -/
theorem statusBytesAreThoseOfTheTable : Obligations.StatusBytesAreThoseOfTheTable :=
  ⟨rfl, rfl, rfl, rfl, rfl, rfl⟩

end Sys2Proof.Machine
end

section
/-! PROOFS. The bit-reversal unit (40_bit_reversal.md): the meaning of REVB (R100) and the algebra of `rev8` (R101), both
from the one fact that bit `i` of `rev8 b` is bit `7 - i` of `b` (`rev8_getLsbD`). -/

namespace Sys2Proof.Machine

/-- Settles O15: the answered byte is `rev8 b`, and the frame is the encoder's. -/
theorem revbAnswersReversedByte : Obligations.RevbAnswersReversedByte :=
  fun _ b => ⟨rev8 b, rfl, rev8_getLsbD b, decode_encode (i := .revb b) rfl⟩

/-- Item 1 of R101: the index map `i ↦ 7 - i` undoes itself on the eight bits. -/
@[simp] theorem rev8_rev8 (b : Byte) : rev8 (rev8 b) = b := by
  refine byte_ext _ _ fun i hi => ?_
  have hback : 7 - (7 - i) = i := by omega
  rw [rev8_getLsbD _ i hi, rev8_getLsbD b (7 - i) (by omega), hback]

/-- Moving the bits commutes with every operation that works on each bit position alone. -/
theorem rev8_bitwise {op : Byte → Byte → Byte} {f : Bool → Bool → Bool}
    (hop : ∀ x y i, (op x y).getLsbD i = f (x.getLsbD i) (y.getLsbD i)) (a b : Byte) :
    rev8 (op a b) = op (rev8 a) (rev8 b) :=
  byte_ext _ _ fun i hi => by rw [hop, rev8_getLsbD _ i hi, rev8_getLsbD _ i hi, rev8_getLsbD _ i hi, hop]

theorem rev8_xor (a b : Byte) : rev8 (a ^^^ b) = rev8 a ^^^ rev8 b :=
  rev8_bitwise (fun _ _ _ => BitVec.getLsbD_xor) a b

theorem rev8_or (a b : Byte) : rev8 (a ||| b) = rev8 a ||| rev8 b :=
  rev8_bitwise (fun _ _ _ => BitVec.getLsbD_or) a b

theorem rev8_and (a b : Byte) : rev8 (a &&& b) = rev8 a &&& rev8 b :=
  rev8_bitwise (fun _ _ _ => BitVec.getLsbD_and) a b

/-- Settles O16: a map that is its own inverse is a bijection, and XOR, OR and AND work bit by bit. -/
theorem reversalProperties : Obligations.ReversalProperties :=
  ⟨rev8_rev8, Function.Involutive.bijective rev8_rev8, fun a b => ⟨rev8_xor a b, rev8_or a b, rev8_and a b⟩⟩

end Sys2Proof.Machine
end

section
/-! PROOFS. The CRC-24 generator (41_crc24.md): the three bytes are one 24-bit register (R112), on which the bit step is a
left shift and the taps. The properties of R116 are read off that register: the step is linear in register and input bit,
and a register that is fed its own top bit only shifts. -/

namespace Sys2Proof.Machine

/-! ### The accumulator as one register (R54, R112) -/

/-- The accumulator as the 24-bit value of `reg24`. -/
def Acc.reg (a : Acc) : BitVec 24 := reg24 a.c0 a.c1 a.c2

/-- The XOR of two accumulators, byte by byte. -/
def Acc.xor (a b : Acc) : Acc := ⟨a.c0 ^^^ b.c0, a.c1 ^^^ b.c1, a.c2 ^^^ b.c2⟩

theorem Acc.reg_getLsbD (a : Acc) (j : Nat) (hj : j < 24) :
    a.reg.getLsbD j = if j < 8 then a.c2.getLsbD j else if j < 16 then a.c1.getLsbD (j - 8) else a.c0.getLsbD (j - 16) :=
  reg24_getLsbD a.c0 a.c1 a.c2 j hj

theorem Acc.reg_injective : Function.Injective Acc.reg := by
  intro a b h
  have hbit (j : Nat) (hj : j < 24) : a.reg.getLsbD j = b.reg.getLsbD j := by rw [h]
  have h0 : a.c0 = b.c0 := byte_ext _ _ fun i hi => by
    simpa only [Acc.reg_getLsbD _ _ (show i + 16 < 24 by omega), if_neg (show ¬i + 16 < 8 by omega),
      if_neg (show ¬i + 16 < 16 by omega), Nat.add_sub_cancel] using hbit (i + 16) (by omega)
  have h1 : a.c1 = b.c1 := byte_ext _ _ fun i hi => by
    simpa only [Acc.reg_getLsbD _ _ (show i + 8 < 24 by omega), if_neg (show ¬i + 8 < 8 by omega),
      if_pos (show i + 8 < 16 by omega), Nat.add_sub_cancel] using hbit (i + 8) (by omega)
  have h2 : a.c2 = b.c2 := byte_ext _ _ fun i hi => by
    simpa only [Acc.reg_getLsbD _ _ (show i < 24 by omega), if_pos hi] using hbit i (by omega)
  cases a
  cases b
  congr

theorem Acc.reg_xor (a b : Acc) : (a.xor b).reg = a.reg ^^^ b.reg := by
  refine BitVec.eq_of_getLsbD_eq fun j hj => ?_
  simp only [BitVec.getLsbD_xor, Acc.reg_getLsbD _ _ hj, Acc.xor]
  split_ifs <;> rfl

/-! ### The bit step (R111, R112) -/

/-- The step on the 24-bit value, bit by bit: the bit below, and the taps times the feedback. -/
theorem reg24Step_getLsbD (r : BitVec 24) (x : Bool) (k : Nat) (hk : k < 24) :
    (reg24Step r x).getLsbD k =
      Bool.xor (if k = 0 then false else r.getLsbD (k - 1)) ((0x00065B#24).getLsbD k && (r.getLsbD 23 != x)) := by
  have hs : (r <<< 1).getLsbD k = if k = 0 then false else r.getLsbD (k - 1) := by
    rw [BitVec.getLsbD_shiftLeft]
    cases k <;> simp [hk, -BitVec.getLsbD_eq_getElem]
  unfold reg24Step
  cases hf : r.getLsbD 23 != x <;> simp [hs]

/-- The step on three bytes is the step on the 24-bit value (R112): in each byte, the bit below comes from the same byte or
is the top bit of the next one, and the taps are those of that byte. -/
theorem reg_crcStep (a : Acc) (x : Bool) : (crcStep a x).reg = reg24Step a.reg x := by
  refine BitVec.eq_of_getLsbD_eq fun k hk => ?_
  have htaps : 0x00065B#24 = Acc.reg ⟨0, crcTapB1, crcTapB2⟩ := rfl
  have htop : a.reg.getLsbD 23 = a.c0.getLsbD 7 := a.reg_getLsbD 23 (by decide)
  rw [reg24Step_getLsbD _ _ _ hk, htop, htaps]
  simp only [Acc.reg_getLsbD _ _ hk, Acc.reg_getLsbD _ (k - 1) (by omega)]
  by_cases h2 : k < 8
  · simp only [if_pos h2, if_pos (show k - 1 < 8 by omega), crcStep_c2 _ _ _ h2]
  by_cases h1 : k < 16
  · simp only [if_neg h2, if_pos h1, crcStep_c1 _ _ _ (show k - 8 < 8 by omega)]
    grind
  · simp only [if_neg h2, if_neg h1, crcStep_c0 _ _ _ (show k - 16 < 8 by omega)]
    grind

/-- Settles O18: the taps are the six positions named, and position 0. -/
theorem crcStepTapByTap : Obligations.CrcStepTapByTap := by
  intro a x
  change (crcStep a x).reg.getLsbD 0 = _ ∧ ∀ j, j < 23 → (crcStep a x).reg.getLsbD (j + 1) = _
  have htaps : ∀ j, j < 23 → (0x00065B#24).getLsbD (j + 1) = decide (j + 1 = 1 ∨ j + 1 = 3 ∨ j + 1 = 4 ∨ j + 1 = 6 ∨
      j + 1 = 9 ∨ j + 1 = 10) := by decide
  rw [reg_crcStep]
  refine ⟨(reg24Step_getLsbD _ _ 0 (by decide)).trans (Bool.false_xor _), fun j hj => ?_⟩
  rw [reg24Step_getLsbD _ _ _ (by omega), htaps j hj, if_neg (Nat.succ_ne_zero j), Nat.add_sub_cancel]
  split_ifs with htap
  · rw [decide_eq_true htap, Bool.true_and]
    rfl
  · rw [decide_eq_false htap, Bool.false_and, Bool.xor_false]
    rfl

/-! ### The run over the bits of the data (R110) -/

/-- The CRC is the fold of the bit step over the bits in processing order. -/
theorem crc24_eq_foldl_bits (data : List Byte) (a : Acc) : crc24 data a = (bitsLsbFirst data).foldl crcStep a := by
  simp only [bitsLsbFirst, List.foldl_flatMap, List.foldl_map]
  rfl

theorem reg_crc24 (data : List Byte) (a : Acc) : (crc24 data a).reg = reg24Run data a.reg := by
  rw [crc24_eq_foldl_bits]
  exact (List.foldl_hom Acc.reg fun a x => (reg_crcStep a x).symm).symm

/-- Settles O17: the register is that of `reg_crc24`, and the frame is the encoder's. -/
theorem crcAnswersRegister : Obligations.CrcAnswersRegister := fun _ c0 c1 c2 data =>
  ⟨_, _, _, rfl, reg_crc24 data ⟨c0, c1, c2⟩, fun hlen => decode_encode (i := .crc24 c0 c1 c2 data) (decide_eq_true hlen)⟩

/-- Settles O19: nothing is loaded before the run and nothing is done after it (R114, R115). -/
theorem crcChains : Obligations.CrcChains :=
  fun _ _ _ => List.foldl_append

/-! ### Linearity (R116 item 3) -/

theorem reg24Step_xor (r s : BitVec 24) (x y : Bool) :
    reg24Step (r ^^^ s) (Bool.xor x y) = reg24Step r x ^^^ reg24Step s y := by
  refine BitVec.eq_of_getLsbD_eq fun k hk => ?_
  simp only [BitVec.getLsbD_xor, reg24Step_getLsbD _ _ _ hk]
  split_ifs <;> simp only [Bool.bne_eq_xor, Bool.and_xor_distrib_left, Bool.xor_assoc,
    Bool.xor_left_comm, Bool.false_xor]

theorem crcStep_xor (a b : Acc) (x y : Bool) :
    crcStep (a.xor b) (Bool.xor x y) = (crcStep a x).xor (crcStep b y) :=
  Acc.reg_injective (by simp only [reg_crcStep, Acc.reg_xor, reg24Step_xor])

theorem crcByte_xor (a b : Acc) (x y : Byte) : crcByte (a.xor b) (x ^^^ y) = (crcByte a x).xor (crcByte b y) :=
  List.foldl_hom₂ lsbFirst Acc.xor _ _ _ a b fun a b i => by rw [BitVec.getLsbD_xor, crcStep_xor]

/-- Byte by byte along both strings. -/
theorem crc24_xor {d e : List Byte} (hlen : d.length = e.length) (a b : Acc) :
    crc24 (List.zipWith (fun x y => x ^^^ y) d e) (a.xor b) = (crc24 d a).xor (crc24 e b) := by
  induction d generalizing e a b with
  | nil =>
    cases e with
    | nil => rfl
    | cons y e => cases hlen
  | cons x d ih =>
    cases e with
    | nil => cases hlen
    | cons y e =>
      simp only [crc24, List.zipWith_cons_cons, List.foldl_cons, crcByte_xor] at ih ⊢
      exact ih (Nat.succ.inj hlen) _ _

/-- Settles O20: the bit step is linear in register and input bit, hence the whole run. -/
theorem crcIsLinear : Obligations.CrcIsLinear :=
  fun _ _ a b hlen => crc24_xor hlen a b

/-! ### The residue (R116 item 4) -/

/-- A register fed its own top bit has no feedback. -/
theorem reg24Step_top (r : BitVec 24) : reg24Step r (r.getLsbD 23) = r <<< 1 := by
  simp [reg24Step]

/-- Fed its own bits from the top one down, the register only shifts. -/
theorem foldl_reg24Step_own_bits (r : BitVec 24) {n : Nat} (hn : n ≤ 24) :
    ((List.range n).map fun i => r.getLsbD (23 - i)).foldl reg24Step r = r <<< n := by
  induction n with
  | zero => simp
  | succ n ih =>
    have htop : r.getLsbD (23 - n) = (r <<< n).getLsbD 23 := by
      simp [BitVec.getLsbD_shiftLeft, show ¬23 < n by omega, -BitVec.getLsbD_eq_getElem]
    rw [List.range_succ, List.map_append, List.foldl_append, ih (by omega)]
    change reg24Step (r <<< n) (r.getLsbD (23 - n)) = _
    rw [htop, reg24Step_top, BitVec.shiftLeft_add]

/-- The reversed bytes of the register hold its bits from the top one down, in processing order. -/
theorem bitsLsbFirst_reversed (a : Acc) :
    bitsLsbFirst [rev8 a.c0, rev8 a.c1, rev8 a.c2] = (List.range 24).map fun i => a.reg.getLsbD (23 - i) := by
  simp [bitsLsbFirst, List.range, List.range.loop, rev8_getLsbD, Acc.reg_getLsbD, -BitVec.getLsbD_eq_getElem]

theorem crc24_reversed_self (a : Acc) : crc24 [rev8 a.c0, rev8 a.c1, rev8 a.c2] a = ⟨0, 0, 0⟩ := by
  apply Acc.reg_injective
  calc (crc24 [rev8 a.c0, rev8 a.c1, rev8 a.c2] a).reg
    _ = a.reg <<< 24 := by
      rw [reg_crc24, reg24Run, bitsLsbFirst_reversed, foldl_reg24Step_own_bits _ (Nat.le_refl 24)]
    _ = 0 := BitVec.shiftLeft_eq_zero (Nat.le_refl 24)

/-- Settles O21: the second part of the run starts from the register whose bits it is fed. -/
theorem crcZeroResidue : Obligations.CrcZeroResidue := by
  intro d a
  rw [crcChains, crc24_reversed_self]

end Sys2Proof.Machine
end

section
/-! PROOFS. The whitening engine and its seed function (42_whitening.md): WHITEN XORs the keystream onto its data, one key
byte per byte (R130, R134 items 1 and 2), and from the seed of a channel the register has period 127 (R134 item 4). -/

namespace Sys2Proof.Machine

/-! ### WHITEN is an XOR with the keystream (R130, R134 item 1) -/

theorem keyByte_getLsbD (w : Byte) (k i : Nat) (hi : i < 8) : (keyByte w k).getLsbD i = keyBit w (8 * k + i) :=
  (BitVec.getLsbD_ofFnLE _ i).trans (dif_pos hi)

/-- Eight steps on, the keystream is one byte further. -/
theorem keyByte_lfsr (w : Byte) (k : Nat) : keyByte (lfsr w 8) k = keyByte w (k + 1) := by
  refine byte_ext _ _ fun i hi => ?_
  have hstep : 8 + (8 * k + i) = 8 * (k + 1) + i := by omega
  rw [keyByte_getLsbD _ _ _ hi, keyByte_getLsbD _ _ _ hi, keyBit, keyBit, lfsr_add, hstep]

theorem whByte_data (w d : Byte) : (whByte w d).2 = d ^^^ keyByte w 0 :=
  byte_ext _ _ fun i hi => by
    rw [whByte_bit _ _ _ hi, BitVec.getLsbD_xor, keyByte_getLsbD _ _ _ hi, Nat.mul_zero, Nat.zero_add]

theorem whiten_cons (d : Byte) (ds : List Byte) (w : Byte) :
    whiten (d :: ds) w = (d ^^^ keyByte w 0) :: whiten ds (lfsr w 8) := by
  rw [whiten, whByte_data, whByte_register]

theorem whiten_getD {data : List Byte} {k : Nat} (hk : k < data.length) (w : Byte) :
    (whiten data w).getD k 0 = data.getD k 0 ^^^ keyByte w k := by
  induction data generalizing w k with
  | nil => cases hk
  | cons d ds ih =>
    rw [whiten_cons]
    cases k with
    | zero => rfl
    | succ k => rw [List.getD_cons_succ, List.getD_cons_succ, ih (Nat.lt_of_succ_lt_succ hk), keyByte_lfsr]

/-- Settles O22: byte `k` is XORed with key byte `k`, whose bits are the stream's, and the frame is the encoder's. -/
theorem whitenFlipsByTheStream : Obligations.WhitenFlipsByTheStream := fun _ seed data =>
  ⟨whiten data seed, rfl, whiten_length data seed,
    fun k i hk hi => by rw [whiten_getD hk, BitVec.getLsbD_xor, keyByte_getLsbD _ _ _ hi],
    fun hlen => decode_encode (i := .whiten seed data) (decide_eq_true hlen)⟩

/-- Settles O23: both runs go through the same registers, so each byte meets its key byte twice. -/
theorem whiteningIsAnInvolution : Obligations.WhiteningIsAnInvolution := by
  intro data seed
  induction data generalizing seed with
  | nil => rfl
  | cons d ds ih => rw [whiten_cons, whiten_cons, ih, BitVec.xor_assoc, BitVec.xor_self, BitVec.xor_zero]

/-! ### The seed of a channel (R135) -/

theorem wseed_getLsbD (ch : Byte) (i : Nat) (hi : i < 8) :
    (wseed ch).getLsbD i = (decide (i = 1) || ch.getLsbD (7 - i)) := by
  have hor : ∀ i, i < 8 → whSeedOr.getLsbD i = decide (i = 1) := by decide
  rw [wseed, BitVec.getLsbD_or, rev8_getLsbD _ _ hi, hor i hi, Bool.or_comm]

/-- Settles O25: the answered byte is `wseed ch`, and the frame is the encoder's. -/
theorem wseedAnswersSeed : Obligations.WseedAnswersSeed := fun _ ch =>
  ⟨wseed ch, rfl, wseed_getLsbD ch 1 (by decide),
    fun i hi h1 => by rw [wseed_getLsbD ch i hi, decide_eq_false h1, Bool.false_or],
    decode_encode (i := .wseed ch) rfl⟩

/-- Bit 1 of a seed is set. -/
theorem wseed_ne_zero (ch : Byte) : wseed ch ≠ 0 := by
  intro h
  have hbit := wseed_getLsbD ch 1 (by decide)
  rw [h] at hbit
  cases hbit

/-- Bit 0 of a seed is bit 7 of the channel index (R132). -/
theorem wseed_bit0 {ch : Byte} (hch : ch.toNat < 128) : (wseed ch).getLsbD 0 = false := by
  rw [wseed_getLsbD ch 0 (by decide)]
  exact Nat.testBit_lt_two_pow hch

/-! ### The period of the register (R132, R134 item 4) -/

/-- The step only shifts zero in at the bottom, so bit 0 stays clear (R132). -/
theorem lfsr_bit0 {w : Byte} (hw : w.getLsbD 0 = false) (n : Nat) : (lfsr w n).getLsbD 0 = false := by
  cases n with
  | zero => exact hw
  | succ n => simp [lfsr]

theorem lfsr_eq_iterate (w : Byte) (n : Nat) : lfsr w n = (lfsr · 1)^[n] w := by
  induction n with
  | zero => rfl
  | succ n ih => rw [Function.iterate_succ_apply', ← ih, lfsr_add]

/-- The run of the register is linear over XOR: two taps cancel, and the shift distributes. -/
theorem lfsr_xor (v w : Byte) (n : Nat) : lfsr (v ^^^ w) n = lfsr v n ^^^ lfsr w n := by
  induction n with
  | zero => rfl
  | succ n ih =>
    simp only [lfsr, ih, BitVec.getLsbD_xor, ← BitVec.shiftLeft_xor_distrib]
    congr 1
    cases (lfsr v n).getLsbD 7 <;> cases (lfsr w n).getLsbD 7
    case false.false => rfl
    case false.true => exact BitVec.xor_assoc ..
    case true.false =>
      change lfsr v n ^^^ lfsr w n ^^^ 0x11 = lfsr v n ^^^ 0x11 ^^^ lfsr w n
      ac_rfl
    case true.true =>
      calc lfsr v n ^^^ lfsr w n
        _ = lfsr v n ^^^ lfsr w n ^^^ (0x11 ^^^ 0x11) := by rw [BitVec.xor_self, BitVec.xor_zero]
        _ = lfsr v n ^^^ 0x11 ^^^ (lfsr w n ^^^ 0x11) := by ac_rfl

theorem lfsr_zero (n : Nat) : lfsr 0 n = 0 := by
  simpa using lfsr_xor 0 0 n

/-- The one run of 127 steps that is computed; linearity and the orbit of 0x02 give all others. -/
theorem lfsr_two_period : lfsr 0x02 127 = 0x02 := by decide +kernel

/-- The single bits 1 to 7 are the first seven registers from 0x02, and so on its orbit. -/
theorem lfsr_bitTo_period (w : Byte) {i : Nat} (h0 : 0 < i) (hi : i < 8) : lfsr (bitTo w i i) 127 = bitTo w i i := by
  have horbit : ∀ i, i < 8 → 0 < i → (1 : Byte) <<< i = lfsr 0x02 (i - 1) := by decide
  unfold bitTo
  split_ifs
  · rw [horbit i hi h0, lfsr_add, Nat.add_comm, ← lfsr_add, lfsr_two_period]
  · exact lfsr_zero 127

/-- A register with bit 0 clear is the XOR of its seven other bits, so the run of 127 steps, being linear, keeps it. -/
theorem lfsr_period {w : Byte} (hw : w.getLsbD 0 = false) : lfsr w 127 = w := by
  have hbits : w = bitTo w 1 1 ^^^ bitTo w 2 2 ^^^ bitTo w 3 3 ^^^ bitTo w 4 4 ^^^ bitTo w 5 5 ^^^ bitTo w 6 6 ^^^
      bitTo w 7 7 := by
    refine byte_ext _ _ fun i hi => ?_
    simp only [BitVec.getLsbD_xor, bitTo_getLsbD _ _ _ _ hi]
    match i, hi with
    | 0, _ => simpa using hw
    | 1, _ | 2, _ | 3, _ | 4, _ | 5, _ | 6, _ | 7, _ => simp
  rw [hbits]
  simp (disch := decide) only [lfsr_xor, lfsr_bitTo_period]

theorem eq_zero_of_lfsr_one_eq : ∀ w : Byte, lfsr w 1 = w → w = 0 := by decide

/-- 127 is prime, so a register that one step moves and 127 steps bring back has no shorter period. -/
theorem minimalPeriod_lfsr {w : Byte} (hw : w.getLsbD 0 = false) (hne : w ≠ 0) :
    Function.minimalPeriod (lfsr · 1) w = 127 := by
  have : Fact (Nat.Prime 127) := ⟨by norm_num⟩
  refine Function.minimalPeriod_eq_prime ?_ fun hfix => hne (eq_zero_of_lfsr_one_eq w hfix)
  exact (lfsr_eq_iterate w 127).symm.trans (lfsr_period hw)

theorem lfsr_ne_of_lt {w : Byte} (hw : w.getLsbD 0 = false) (hne : w ≠ 0) {n : Nat} (h0 : 0 < n) (hn : n < 127) :
    lfsr w n ≠ w := by
  rw [lfsr_eq_iterate]
  exact Function.not_isPeriodicPt_of_pos_of_lt_minimalPeriod h0.ne' (by rwa [minimalPeriod_lfsr hw hne])

/-- Settles O24: the register depends on the number of steps alone, and its period from a nonzero seed is 127. -/
theorem whiteningRegisterOfChannels : Obligations.WhiteningRegisterOfChannels := by
  refine ⟨fun ch hch => ?_, fun w d => ?_⟩
  · have hw : (wseed ch).getLsbD 0 = false := wseed_bit0 (by omega)
    simp only [whRegister_eq]
    refine ⟨fun bits => lfsr_bit0 hw _, ?_, fun bits h0 hn => lfsr_ne_of_lt hw (wseed_ne_zero ch) h0 hn, ?_⟩
    · intro bits hlen
      rw [hlen, lfsr_period hw]
    · intro bits bits' x hlen
      rw [hlen, Nat.add_comm, ← lfsr_add, lfsr_period hw]
  · rw [whByte_register, whRegister_eq, List.length_map, List.length_range]

end Sys2Proof.Machine
end

section
/-! PROOFS. The encoder pipeline (43_encoder.md): ENCODE answers `encodeParts` of the packet's body and of the start value
in its last three bytes (`encodePacket_eq_some_iff`), and byte `j` of that is the reversal of an XOR with key byte `j`
(`encodeParts_getD`), from which the closed form (R155), its inversion (R156) and the bytewise action (R157) follow. -/

namespace Sys2Proof.Machine

/-! ### A packet as its body and its start value (R150, R154) -/

/-- The bytes of a packet before its last three. -/
def packetBody (p : List Byte) : List Byte := p.take (p.length - 3)

/-- The CRC start value a packet carries in its last three bytes. -/
def packetStart (p : List Byte) : Acc := ⟨p.getD (p.length - 3) 0, p.getD (p.length - 2) 0, p.getD (p.length - 1) 0⟩

theorem packetBody_length (p : List Byte) : (packetBody p).length = p.length - 3 :=
  List.length_take_of_le (Nat.sub_le ..)

theorem packetBody_getD {p : List Byte} {j : Nat} (hj : j < p.length - 3) : (packetBody p).getD j 0 = p.getD j 0 := by
  simp only [packetBody, List.getD_eq_getElem?_getD, List.getElem?_take_of_lt hj]

theorem splitPacket_eq {p : List Byte} (hp : 3 ≤ p.length) : splitPacket p = some (packetBody p, packetStart p) := by
  obtain ⟨body, c0, c1, c2, rfl⟩ := exists_split p hp
  rw [splitPacket_append]
  simp [packetBody, packetStart]

theorem encodePacket_eq_some_iff {p q : List Byte} {ch : Byte} :
    encodePacket p ch = some q ↔ 3 ≤ p.length ∧ encodeParts (packetBody p) (packetStart p) ch = q := by
  rcases Nat.lt_or_ge p.length 3 with hp | hp
  · simp [encodePacket, splitPacket_short p hp, hp]
  · simp [encodePacket, splitPacket_eq hp, hp]

theorem exec_encode_of_some {p q : List Byte} {ch : Byte} (h : encodePacket p ch = some q) (s : State) :
    exec (.encode ch p) s = .next (s.respond .ok q) := by
  change execEncode ch p s = _
  rw [execEncode, h]

theorem exec_encode_short {p : List Byte} (hp : p.length < 3) (ch : Byte) (s : State) :
    exec (.encode ch p) s = .next (s.raise .badOperand) := by
  change execEncode ch p s = _
  rw [execEncode, encodePacket, splitPacket_short p hp]
  rfl

/-- Settles O26: three bytes or more are split into body and start value, fewer are no packet. -/
theorem encodeAnswersFourSteps : Obligations.EncodeAnswersFourSteps :=
  ⟨fun s ch body c => exec_encode_of_some (encodePacket_append body c.c0 c.c1 c.c2 ch) s,
    fun s ch _ hp => exec_encode_short hp ch s⟩

/-! ### The closed form (R155) -/

theorem map_rev8_getD (l : List Byte) (j : Nat) : (l.map rev8).getD j 0 = rev8 (l.getD j 0) :=
  List.getD_map l 0 rev8

section
variable (body : List Byte) (c : Acc) (ch : Byte)

/-- Every byte, data or CRC, goes through the last two steps alone: XOR with its key byte, then reversal. -/
theorem encodeParts_getD {j : Nat} (hj : j < body.length + 3) :
    (encodeParts body c ch).getD j 0 =
      rev8 ((body ++ (crc24 body c).bytes.map rev8).getD j 0 ^^^ keyByte (wseed ch) j) := by
  have hlen : j < (body ++ (crc24 body c).bytes.map rev8).length := by simpa [Acc.bytes] using hj
  rw [← whiten_getD hlen, encodeParts, map_rev8_getD]

theorem encodeParts_getD_data {j : Nat} (hj : j < body.length) :
    (encodeParts body c ch).getD j 0 = rev8 (body.getD j 0 ^^^ keyByte (wseed ch) j) := by
  rw [encodeParts_getD body c ch (by omega), List.getD_append _ _ _ _ hj]

/-- The two reversals of a CRC byte cancel, and only its key byte stays reversed. -/
theorem encodeParts_getD_crc {i : Nat} (hi : i < 3) :
    (encodeParts body c ch).getD (body.length + i) 0 =
      (crc24 body c).bytes.getD i 0 ^^^ rev8 (keyByte (wseed ch) (body.length + i)) := by
  have hcrc : (body ++ (crc24 body c).bytes.map rev8).getD (body.length + i) 0 =
      rev8 ((crc24 body c).bytes.getD i 0) := by
    rw [List.getD_append_right _ _ _ _ (Nat.le_add_right ..), Nat.add_sub_cancel_left, map_rev8_getD]
  rw [encodeParts_getD body c ch (by omega), hcrc, rev8_xor, rev8_rev8]

end

theorem encodePacket_getD_data {p q : List Byte} {ch : Byte} (h : encodePacket p ch = some q) {j : Nat}
    (hj : j < p.length - 3) : q.getD j 0 = rev8 (p.getD j 0 ^^^ keyByte (wseed ch) j) := by
  obtain ⟨-, rfl⟩ := encodePacket_eq_some_iff.1 h
  rw [encodeParts_getD_data _ _ _ (by rwa [packetBody_length]), packetBody_getD hj]

theorem encodePacket_getD_crc {p q : List Byte} {ch : Byte} (h : encodePacket p ch = some q) {i k : Nat} (hi : i < 3)
    (hk : k = p.length - 3 + i) :
    q.getD k 0 = (crc24 (packetBody p) (packetStart p)).bytes.getD i 0 ^^^ rev8 (keyByte (wseed ch) k) := by
  obtain ⟨-, rfl⟩ := encodePacket_eq_some_iff.1 h
  rw [hk, ← packetBody_length, encodeParts_getD_crc _ _ _ hi]

theorem encodePacket_length {p q : List Byte} {ch : Byte} (h : encodePacket p ch = some q) : q.length = p.length := by
  obtain ⟨hp, rfl⟩ := encodePacket_eq_some_iff.1 h
  rw [encodeParts_length, packetBody_length, Nat.sub_add_cancel hp]

/-- Settles O27: byte by byte, the CRC's three at the places 0, 1 and 2 after the body. -/
theorem encodeClosedForm : Obligations.EncodeClosedForm := by
  intro s ch p hp
  have hq := encodePacket_eq_some_iff (ch := ch).2 ⟨hp, rfl⟩
  exact ⟨_, _, exec_encode_of_some hq s, encodePacket_length hq, rfl, fun j => encodePacket_getD_data hq,
    encodePacket_getD_crc hq (i := 0) (by decide) (by omega), encodePacket_getD_crc hq (i := 1) (by decide) (by omega),
    encodePacket_getD_crc hq (i := 2) (by decide) (by omega)⟩

/-! ### The reverse pipeline (R156) -/

/-- Reversal and whitening undo the last two steps, and the last three bytes are reversed once more. -/
theorem reversePipeline_encodeParts (body : List Byte) (c : Acc) (ch : Byte) :
    reversePipeline (encodeParts body c ch) ch = (body, (crc24 body c).bytes) := by
  have hrev (l : List Byte) : (l.map rev8).map rev8 = l := by
    rw [List.map_map, Function.Involutive.comp_self rev8_rev8, List.map_id]
  have hwhite : whiten ((encodeParts body c ch).map rev8) (wseed ch) = body ++ (crc24 body c).bytes.map rev8 := by
    rw [encodeParts, hrev, whiteningIsAnInvolution]
  rw [reversePipeline, hwhite, encodeParts_length, Nat.add_sub_cancel, List.take_left, List.drop_left, hrev]

/-- Settles O28: whatever `encodePacket` gives is `encodeParts` of the packet's body and start value. -/
theorem reversePipelineRecovers : Obligations.ReversePipelineRecovers := by
  intro p q ch h
  obtain ⟨-, rfl⟩ := encodePacket_eq_some_iff.1 h
  rw [reversePipeline_encodeParts]
  exact ⟨rfl, rfl⟩

/-! ### The bytewise action (R157 items 1 and 2) -/

/-- Settles O29: XOR with the key byte and reversal are one to one. -/
theorem encodeActsBytewiseOnData : Obligations.EncodeActsBytewiseOnData := by
  intro p p' q q' ch h h' j hj hj'
  have hrev : Function.Injective rev8 := Function.Involutive.injective rev8_rev8
  rw [encodePacket_getD_data h hj, encodePacket_getD_data h' hj', hrev.eq_iff, BitVec.xor_left_inj]

end Sys2Proof.Machine
end

section
/-! PROOFS. The channel hopper (44_channel_hopper.md): an ADVANCE frame answers the pair of the index it meets and
moves the index modulo 3 (R171), and a row of them answers the rotation of the three pairs that begins at that index
(R172). -/

namespace Sys2Proof.Machine

/-- The case table of `nextIdx` is the increment modulo 3 (R171). -/
theorem nextIdx_val (i : Fin 3) : (nextIdx i).val = (i.val + 1) % 3 := by
  revert i
  decide

theorem exec_advance (s : State) : exec .advance s = .next (s.hop.respond .ok [chNum s.chidx, chFreq s.chidx]) := rfl

/-- The two tables, as the numbers of R170. -/
theorem pair_toNat (i : Fin 3) : (i.val = 0 → (chNum i).toNat = 37 ∧ (chFreq i).toNat = 2) ∧
    (i.val = 1 → (chNum i).toNat = 38 ∧ (chFreq i).toNat = 26) ∧
    (i.val = 2 → (chNum i).toNat = 39 ∧ (chFreq i).toNat = 80) := by
  revert i
  decide

/-- Settles O30: the pair is that of the old index, and the frame is the encoder's. -/
theorem advanceAnswersCurrentPair : Obligations.AdvanceAnswersCurrentPair := by
  refine ⟨fun _ => rfl, fun s => ?_⟩
  obtain ⟨h0, h1, h2⟩ := pair_toNat s.chidx
  exact ⟨_, _, _, exec_advance s, nextIdx_val s.chidx, h0, h1, h2, decode_encode (i := .advance) rfl⟩

/-! ### The rotation (R172) -/

/-- The answers to `k` ADVANCE frames from index `i`: OK and the pairs in the order of the tables, wrapping after the
third. -/
def advanceAnswers (i k : Nat) : List (List Byte) :=
  (List.range k).map fun j => (0x00 : Byte) :: [[0x25, 0x02], [0x26, 0x1A], [0x27, 0x50]].getD ((i + j) % 3) []

theorem pair_getD_eq (i : Fin 3) :
    [[0x25, 0x02], [0x26, 0x1A], [0x27, 0x50]].getD (i.val % 3) [] = [chNum i, chFreq i] := by
  revert i
  decide

/-- The first answer is the current pair, and the others are the answers from the next index. -/
theorem advanceAnswers_succ (i : Fin 3) (k : Nat) :
    advanceAnswers i.val (k + 1) = [0x00, chNum i, chFreq i] :: advanceAnswers (nextIdx i).val k := by
  have hshift (j : Nat) : (i.val + (j + 1)) % 3 = ((nextIdx i).val + j) % 3 := by
    rw [nextIdx_val]
    omega
  simp only [advanceAnswers, List.range_succ_eq_map, List.map_cons, List.map_map, Function.comp_def,
    Nat.succ_eq_add_one, hshift, Nat.add_zero, pair_getD_eq]

theorem runSteps_succ_of_next {s t : State} (h : step s = .next t) (k : Nat) : runSteps (k + 1) s = runSteps k t := by
  rw [runSteps, h]

/-- A step that meets the frame `06` is `execAdvance` on the inputs behind it (R6, R75). -/
theorem step_advance {s : State} {more : List HostInput} (hin : s.inputs = .send [0x06] :: more) :
    step s = .next ((s.withInputs more).hop.respond .ok [chNum s.chidx, chFreq s.chidx]) :=
  step_of_frame hin (decode_encode (i := .advance) rfl [])

/-- Settles O31, by induction on the number of frames: the first is answered from the index it meets, and the others are
a shorter row from the next index. -/
theorem advancesRotate : Obligations.AdvancesRotate := by
  intro k
  induction k with
  | zero =>
    intro s hin
    refine ⟨s.chidx, (Nat.mod_eq_of_lt s.chidx.isLt).symm, ?_⟩
    rw [List.range_zero, List.map_nil, List.append_nil, ← List.replicate_zero, ← hin]
    rfl
  | succ k ih =>
    intro s hin
    rw [List.replicate_succ] at hin
    obtain ⟨next, hnext, hrun⟩ := ih ((s.withInputs _).hop.respond .ok [chNum s.chidx, chFreq s.chidx]) rfl
    have hanswers : s.responses ++ advanceAnswers s.chidx.val (k + 1) =
        (s.responses ++ [[0x00, chNum s.chidx, chFreq s.chidx]]) ++ advanceAnswers (nextIdx s.chidx).val k := by
      rw [advanceAnswers_succ, List.append_cons]
    refine ⟨next, ?_, ?_⟩
    · rw [hnext, respond_chidx, hop_chidx, nextIdx_val, withInputs_chidx]
      omega
    · rw [runSteps_succ_of_next (step_advance hin), hrun]
      change _ = Host.Outcome.next { s with
        chidx := next, inputs := [], responses := s.responses ++ advanceAnswers s.chidx.val (k + 1) }
      rw [hanswers]
      rfl

end Sys2Proof.Machine
end

section
/-! PROOFS. The frame builder (45_frame_builder.md): what SETADDR, SETNAME, SETDATA and CURLEN answer and write (R180 to
R183), what they never write (R185), and which names and data a frame has room for (R184, R271). -/

namespace Sys2Proof.Machine

/-! ### SETADDR (R180) -/

/-- SETADDR answers from every state whose buffer holds the address bytes. -/
theorem exec_setaddr {s : State} (hc : 8 ≤ s.cfg.cap) (a : DevAddr) :
    exec (.setaddr a.a0 a.a1 a.a2 a.a3 a.a4 a.a5) s = .next (State.respond .ok []
      { s with addr := a, fb := Memory.writeAll Buf.fb.blank s.fb 2 (addrField a) }) := by
  rw [exec, execSetaddr, setAddress_eq a s hc]
  rfl

/-- Settles O32: one write of six bytes at index 2. -/
theorem setaddrStoresAddress : Obligations.SetaddrStoresAddress := by
  intro s a0 a1 a2 a3 a4 a5 hc
  exact ⟨_, exec_setaddr (Nat.le_trans (by decide) hc.1) ⟨a0, a1, a2, a3, a4, a5⟩, read_writeAll _ _ _ _,
    decode_encode (i := .setaddr a0 a1 a2 a3 a4 a5) rfl⟩

/-! ### SETNAME (R181) -/

/-- What `setName` answers when it succeeds. -/
def nameWritten (t : List Byte) (s : State) : State :=
  { s with
    fb := Memory.writeAll Buf.fb.blank s.fb 11 (nameBytes s.cfg.cap t)
    nameSet := true
    nameLen := t.length
    dataSet := false
    dataLen := 0
    remain := s.cfg.cap - 16 - t.length }

/-- The remaining capacity in the formula of R184. -/
theorem nameWritten_remain (t : List Byte) (s : State) :
    (nameWritten t s).remain = s.cfg.cap - 11 - t.length - 2 - 3 := by
  change s.cfg.cap - 16 - t.length = _
  omega

theorem exec_setname_accepted {s : State} {t : List Byte} (ht : t.length + 16 ≤ s.cfg.cap) :
    exec (.setname t) s = .next ((nameWritten t s).respond .ok [lenByte (nameWritten t s).remain]) := by
  rw [exec, execSetname, setName_accepted t s ht]
  rfl

theorem exec_setname_declined {s : State} {t : List Byte} (ht : s.cfg.cap < t.length + 16) :
    exec (.setname t) s = .next (s.raise .capacityExceeded) := by
  rw [exec, execSetname, setName_declined t s ht]
  rfl

/-- Behind the two leading bytes of the name field stand the name and then zeros. -/
theorem nameBytes_getElem?_add_two {cap k : Nat} (t : List Byte) (hk : 13 + k < cap) :
    (nameBytes cap t)[k + 2]? = some (t.getD k 0x00) := by
  change (t ++ List.replicate (cap - (13 + t.length)) 0x00)[k]? = _
  rcases Nat.lt_or_ge k t.length with hlt | hge
  · rw [List.getElem?_append_left hlt, List.getD_eq_getElem?_getD, List.getElem?_eq_getElem hlt, Option.getD_some]
  · rw [List.getElem?_append_right hge, List.getElem?_replicate_of_lt (by omega), List.getD_eq_default _ _ hge]

/-- FB after an accepted SETNAME, byte by byte. -/
theorem read_nameWritten {s : State} {t : List Byte} (ht : t.length + 16 ≤ s.cfg.cap) (i : Nat) :
    Memory.read Buf.fb.blank (nameWritten t s).fb i =
      if i < 11 ∨ s.cfg.cap ≤ i then s.byteAt .fb i
      else if i = 11 then some (BitVec.ofNat 8 (t.length + 1))
      else if i = 12 then some 0x08
      else some (t.getD (i - 13) 0x00) := by
  have hlen := nameBytes_length s.cfg.cap t (by omega)
  by_cases hout : i < 11 ∨ s.cfg.cap ≤ i
  · rw [if_pos hout]
    exact read_writeAll_of_not _ _ _ _ _ (by omega)
  · have hin : Memory.read Buf.fb.blank (nameWritten t s).fb i = (nameBytes s.cfg.cap t)[i - 11]? :=
      (read_writeAll _ _ _ _ _).trans (if_pos (by omega))
    rw [hin, if_neg hout]
    split_ifs with h11 h12
    · rw [h11]
      rfl
    · rw [h12]
      rfl
    · rw [show i - 11 = i - 13 + 2 by omega, nameBytes_getElem?_add_two t (by omega)]

/-- Settles O33: within the budget by `read_nameWritten`, beyond it a raise. -/
theorem setnameWritesNameField : Obligations.SetnameWritesNameField := by
  intro s t hc
  have hcap := hc.1
  refine ⟨fun ht => ⟨(nameWritten t s).fb, ?_, read_nameWritten (by omega)⟩,
    fun ht => exec_setname_declined (by omega)⟩
  rw [exec_setname_accepted (by omega), nameWritten_remain]
  rfl

/-! ### SETDATA (R182) -/

theorem Inv.exec_setdata_accepted {s : State} (h : Inv s) {x : List Byte} (hn : s.nameSet = true)
    (hd : x.length ≤ s.remain) : exec (.setdata x) s = .next ((dataWritten x s).respond .ok []) := by
  rw [exec, execSetdata, setData_accepted x s hn hd (h.dataField_fits hn hd), dataWritten, hn]
  rfl

theorem exec_setdata_tooLong {s : State} {x : List Byte} (hn : s.nameSet = true) (hd : s.remain < x.length) :
    exec (.setdata x) s = .next (s.raise .capacityExceeded) := by
  rw [exec, execSetdata, setData_tooLong x s hn hd]
  rfl

theorem exec_setdata_noName {s : State} (x : List Byte) (hn : s.nameSet = false) :
    exec (.setdata x) s = .next (s.raise .preconditionViolated) := by
  rw [exec, execSetdata, setData_noName x s hn]
  rfl

/-- FB after an accepted SETDATA: the data field where it stands, the old byte everywhere else. -/
theorem read_dataWritten (x : List Byte) (s : State) (i : Nat) :
    Memory.read Buf.fb.blank (dataWritten x s).fb i =
      if dataStart s ≤ i ∧ i < dataStart s + (2 + x.length) then
        (BitVec.ofNat 8 (x.length + 1) :: 0xFF :: x)[i - dataStart s]?
      else s.byteAt .fb i := by
  have hlen : (adStructure adData x).length = 2 + x.length := Nat.add_comm x.length 2
  rw [← hlen]
  exact read_writeAll Buf.fb.blank (adStructure adData x) s.fb (dataStart s) i

/-- Settles O34: an accepted field by `read_dataWritten`, the two declines a raise each. -/
theorem setdataWritesDataField : Obligations.SetdataWritesDataField := fun s x h =>
  ⟨fun hn hd => ⟨_, h.exec_setdata_accepted hn hd, read_dataWritten x s⟩, exec_setdata_tooLong,
    exec_setdata_noName x⟩

/-- Settles O36: the accepted SETNAME leaves the invariant and the formula's number in `REMAIN`. -/
theorem capacityFormulaDecidesSetdata : Obligations.CapacityFormulaDecidesSetdata := by
  intro s s1 t x h ht hexec
  have hcap := h.legal.1
  have h1 : Inv s1 := h.effect (exec_effect _ s s1 hexec)
  rw [exec_setname_accepted (by omega)] at hexec
  have hs1 := (Host.Outcome.next.inj hexec).symm
  have hn : s1.nameSet = true := by rw [hs1]; rfl
  have hremain : s1.remain = s.cfg.cap - 11 - t.length - 2 - 3 := by rw [hs1]; exact nameWritten_remain t s
  rw [← hremain]
  exact ⟨fun hd => ⟨_, h1.exec_setdata_accepted hn hd, rfl, rfl, rfl⟩, exec_setdata_tooLong hn⟩

/-! ### What the builder never writes (R185) -/

/-- Settles O38: SETADDR writes FB[2..8), SETNAME and SETDATA write from index 11 on, CURLEN and a decline write nothing. -/
theorem builderKeepsHeaderLengthFlags : Obligations.BuilderKeepsHeaderLengthFlags := by
  intro i s t hi h
  have hkeep : ∀ k, k < 2 ∨ (8 ≤ k ∧ k < 11) → t.byteAt .fb k = s.byteAt .fb k := by
    intro k hk
    cases exec_effect i s t h with
    | answered | declined => rfl
    | addressed a => exact read_writeAll_of_not _ _ _ _ _ (by change k < 2 ∨ 8 ≤ k; omega)
    | named n _ => exact read_writeAll_of_not _ _ _ _ _ (by omega)
    | dataSet x _ _ => exact read_writeAll_of_not _ _ _ _ _ (by omega)
    | advanced | sent | dataSent | dataNotSent => simp at hi
  exact ⟨hkeep 0 (by decide), hkeep 1 (by decide), fun k h8 h11 => hkeep k (.inr ⟨h8, h11⟩)⟩

/-! ### Lengths and the transmission (R183, R184, R271) -/

section
variable {s : State} (h : Inv s)
include h

/-- With a data field the whole packet is the eighteen fixed bytes, the name and the data (R52). -/
theorem Inv.totalLen_of_data (hd : s.dataSet = true) : totalLen s = 18 + s.nameLen + s.dataLen := by
  rw [totalLen, currentLength, if_pos (h.data hd).1, if_pos hd]
  omega

/-- Without a data field the packet fits, up to the longest name SETNAME accepts (R271). -/
theorem Inv.totalLen_le_of_noData (hd : s.dataSet = false) : totalLen s ≤ s.cfg.cap := by
  have hcap := h.legal.1
  rw [totalLen, currentLength, hd]
  cases hn : s.nameSet with
  | false => simpa using by omega
  | true =>
    have := (h.name hn).1
    simpa using by omega

/-- The PDU length stays below the capacity, so it does not wrap as a byte (R183). -/
theorem Inv.currentLength_lt_cap : currentLength s < s.cfg.cap := by
  cases hd : s.dataSet with
  | false =>
    have := h.totalLen_le_of_noData hd
    rw [totalLen] at this
    omega
  | true =>
    have htotal := h.totalLen_of_data hd
    have hfits := h.dataField_fits (h.data hd).1 (h.data hd).2
    rw [totalLen] at htotal
    omega

end

/-- Settles O35: the answer is the byte of `currentLength`, which is below `CAP` under the invariant. -/
theorem curlenAnswersLength : Obligations.CurlenAnswersLength := by
  intro s
  refine ⟨lenByte (currentLength s), rfl, fun h => ?_, decode_encode (i := .curlen) rfl⟩
  have hlt := h.currentLength_lt_cap
  have hcap := h.legal.2
  have hbyte : (lenByte (currentLength s)).toNat = currentLength s := Nat.mod_eq_of_lt (by omega)
  exact hbyte

/-- TXONCE transmits or raises, by whether the frame fits (R210, R213). -/
theorem exec_txonce_cases (s : State) :
    (totalLen s ≤ s.cfg.cap ∧ exec .txonce s = .next ((transmitted s).respond .ok [])) ∨
      (s.cfg.cap < totalLen s ∧ exec .txonce s = .next (s.raise .frameOverrun)) := by
  rw [exec, execTxonce]
  rcases transmitOnce_cases s with ⟨hc, hs⟩ | ⟨hc, hs⟩
  · exact .inl ⟨hc, by rw [hs]; rfl⟩
  · exact .inr ⟨hc, by rw [hs]; rfl⟩

/-- A transmission makes radio calls (R245). -/
theorem transmitted_radio_ne (s : State) : (transmitted s).radio ≠ s.radio := by
  simp [radioCalls]

/-- TXONCE answers, and makes no radio call exactly when the frame does not fit (R213). -/
theorem exec_txonce_radio (s : State) :
    ∃ t, exec .txonce s = .next t ∧ (t.radio = s.radio ↔ s.cfg.cap < totalLen s) := by
  rcases exec_txonce_cases s with ⟨hc, hs⟩ | ⟨hc, hs⟩
  · exact ⟨_, hs, iff_of_false (transmitted_radio_ne s) (Nat.not_lt.2 hc)⟩
  · exact ⟨_, hs, iff_of_true rfl hc⟩

/-- Settles O44: whether TXONCE calls the radio is a matter of `totalLen`, which the fields present fix. -/
theorem transmittedExactlyWhenItFits : Obligations.TransmittedExactlyWhenItFits := by
  intro s h
  obtain ⟨t, ht, hradio⟩ := exec_txonce_radio s
  exact ⟨t, ht, fun hd => h.totalLen_of_data hd ▸ hradio,
    fun hd => mt hradio.1 (Nat.not_lt.2 (h.totalLen_le_of_noData hd))⟩

end Sys2Proof.Machine
end

section
/-! PROOFS. The transmit controller (46_transmit_controller.md): what a transmission leaves in FB and TX and hands to the
radio (R210, R212, R214), a frame that does not fit (R213), SENDDATA as SETDATA and then a transmission (R211), and the
radio calls of a step (R212, R245). -/

namespace Sys2Proof.Machine

/-! ### The buffers and the packet of a transmission (R210 steps 1 to 4) -/

/-- FB after a transmission: the length byte, the placeholder, and the old byte everywhere else. -/
theorem read_framedFb (s : State) (i : Nat) :
    Memory.read Buf.fb.blank (framedFb s) i =
      if i = 1 then some (BitVec.ofNat 8 (currentLength s))
      else if 2 + currentLength s ≤ i ∧ i < totalLen s then some 0x55
      else s.byteAt .fb i := by
  by_cases hcrc : 2 + currentLength s ≤ i ∧ i < totalLen s
  · have hplace : Memory.read Buf.fb.blank (framedFb s) i = crcPlaceholder[i - (2 + currentLength s)]? :=
      (read_writeAll _ _ _ _ _).trans (if_pos hcrc)
    have h3 : i - (2 + currentLength s) < 3 := by
      rw [totalLen] at hcrc
      omega
    have hbyte : ∀ k < 3, crcPlaceholder[k]? = some 0x55 := by decide
    rw [hplace, hbyte _ h3, if_neg (by omega), if_pos hcrc]
  · have hout : Memory.read Buf.fb.blank (framedFb s) i = _ := (read_writeAll _ _ _ _ _).trans (if_neg hcrc)
    rw [hout, if_neg hcrc]
    exact read_write Buf.fb.blank s.fb 1 i (lenByte (currentLength s))

/-- TX after a transmission: the bytes sent, and the old content beyond them (R22). -/
theorem read_codedTx (s : State) (i : Nat) :
    Memory.read Buf.tx.blank (codedTx s) i = if i < totalLen s then (codedFrame s)[i]? else s.byteAt .tx i := by
  have hplain : (framedBody s ++ crcPlaceholder).length = totalLen s := by
    rw [List.length_append, framedBody_length]
    rfl
  rw [codedTx, read_writeAll, read_writeAll, hplain, codedFrame_length]
  simp only [Nat.zero_le, true_and, Nat.zero_add, Nat.sub_zero]
  split_ifs <;> rfl

/-- The bytes a transmission copies out of FB are the framed bytes and the placeholder. -/
theorem map_read_framedFb (s : State) :
    (List.range (totalLen s)).map (fun k => (Memory.read Buf.fb.blank (framedFb s) k).getD 0) =
      framedBody s ++ crcPlaceholder := by
  rw [← framed_range s]
  simp only [read_fb, Option.getD_some, Nat.zero_add]

/-- The plain packet, written from the state before the transmission, is what the transmission copies out of FB. -/
theorem plainPacket_eq (s : State) : plainPacket s = framedBody s ++ crcPlaceholder := by
  rw [← map_read_framedFb, plainPacket]
  refine List.map_congr_left fun k hk => ?_
  have hlt : k < totalLen s := List.mem_range.1 hk
  simp only [read_framedFb, hlt, and_true]
  split_ifs <;> rfl

theorem plainPacket_take (s : State) : (plainPacket s).take (totalLen s - 3) = framedBody s := by
  have hlen : totalLen s - 3 = (framedBody s).length := by
    rw [framedBody_length]
    rfl
  rw [plainPacket_eq, hlen, List.take_left]

/-- The bytes sent are the encoding of the packet in FB for the channel of the old index (R210 steps 3 and 4). -/
theorem encodePacket_framed (s : State) :
    encodePacket (framedBody s ++ crcPlaceholder) (chNum s.chidx) = some (codedFrame s) :=
  encodePacket_append _ _ _ _ _

/-- The two channel tables, as pairs (R170). -/
theorem chPair_eq_getD (i : Fin 3) :
    (chNum i, chFreq i) =
      ([(0x25, 0x02), (0x26, 0x1A), (0x27, 0x50)] : List (Byte × Byte)).getD i.val (0, 0) := by
  revert i
  decide

theorem chNum_eq_ofNat (i : Fin 3) : BitVec.ofNat 8 (37 + i.val) = chNum i := by
  revert i
  decide

/-! ### TXONCE (R210, R213, R214) -/

theorem exec_txonce_fits {s : State} (hc : totalLen s ≤ s.cfg.cap) :
    exec .txonce s = .next ((transmitted s).respond .ok []) := by
  rcases exec_txonce_cases s with ⟨-, hs⟩ | ⟨hlt, -⟩
  · exact hs
  · omega

theorem exec_txonce_overrun {s : State} (hc : s.cfg.cap < totalLen s) :
    exec .txonce s = .next (s.raise .frameOverrun) := by
  rcases exec_txonce_cases s with ⟨hle, -⟩ | ⟨-, hs⟩
  · omega
  · exact hs

/-- Settles O39: the state TXONCE leaves is `transmitted`, and each of its parts is known by a lemma above. -/
theorem txonceTransmits : Obligations.TxonceTransmits := by
  intro s hc
  refine ⟨framedFb s, codedTx s, nextIdx s.chidx, chNum s.chidx, chFreq s.chidx, codedFrame s, ?_,
    nextIdx_val s.chidx, chPair_eq_getD s.chidx, ?_, codedFrame_length s, read_framedFb s, read_codedTx s⟩
  · rw [exec_txonce_fits hc, ← codedFrame_length s]
    rfl
  · rw [plainPacket_eq, encodePacket_framed]

/-- Settles O40: a frame that does not fit is a raise. -/
theorem txonceOverrunWithoutEffect : Obligations.TxonceOverrunWithoutEffect :=
  fun _ => exec_txonce_overrun

/-- Settles O45: the reverse pipeline undoes the encoding of the framed bytes. -/
theorem transmissionIsRecoverable : Obligations.TransmissionIsRecoverable := by
  intro s hc
  have hrev : reversePipeline (codedFrame s) (chNum s.chidx) =
      (framedBody s, (crc24 (framedBody s) ⟨0x55, 0x55, 0x55⟩).bytes) := reversePipeline_encodeParts _ _ _
  refine ⟨_, chFreq s.chidx, codedFrame s, exec_txonce_fits hc, rfl, ?_⟩
  rw [chNum_eq_ofNat, plainPacket_take, hrev]
  exact ⟨rfl, rfl⟩

/-! ### SENDDATA (R211) -/

theorem exec_senddata_of_ok {s t : State} {x : List Byte} (hx : setData x s = .ok t) :
    exec (.senddata x) s = exec .txonce t := by
  change execSenddata x s = execTxonce t
  rw [execSenddata, hx, execTxonce]

/-- Where `setData` ends early, both operations end as it does. -/
theorem exec_senddata_of_error {s : State} {x : List Byte} {e : Stop} (hx : setData x s = .error e) :
    exec (.senddata x) s = exec (.setdata x) s := by
  change execSenddata x s = execSetdata x s
  rw [execSenddata, execSetdata, hx, finish]

/-- An answer to SETDATA on admitted data says that `setData` succeeded: the one other way out is a fault. -/
theorem setData_ok_of_exec_setdata {s t : State} {x : List Byte} (hn : s.nameSet = true) (hd : x.length ≤ s.remain)
    (h : exec (.setdata x) s = .next t) :
    setData x s = .ok (dataWritten x s) ∧ t = (dataWritten x s).respond .ok [] := by
  rw [exec, execSetdata] at h
  rcases setData_cases x s with ⟨-, -, hs⟩ | ⟨hn', -⟩ | ⟨-, hd', -⟩ | ⟨f, hs⟩
  · rw [hs] at h
    exact ⟨hs, (Host.Outcome.next.inj h).symm⟩
  · simp [hn] at hn'
  · omega
  · rw [hs] at h
    cases h

/-- Settles O41: by what `setData` answers, and the decoder's round trip for the frame. -/
theorem senddataIsSetdataThenTxonce : Obligations.SenddataIsSetdataThenTxonce := by
  refine fun s x => ⟨fun hdecl => ?_, fun s1 hn hd h => ?_,
    fun hx => decode_encode (i := .senddata x) (decide_eq_true hx)⟩
  · cases hn : s.nameSet with
    | false => exact exec_senddata_of_error (setData_noName x s hn)
    | true => exact exec_senddata_of_error (setData_tooLong x s hn (hdecl.resolve_left (by simp [hn])))
  · obtain ⟨hs, rfl⟩ := setData_ok_of_exec_setdata hn hd h
    exact exec_senddata_of_ok hs

section
variable {s : State} {x : List Byte} (h : Inv s) (hn : s.nameSet = true) (hd : x.length ≤ s.remain)
include h hn hd

/-- Under the invariant SENDDATA on accepted data is TXONCE with the data field in place. -/
theorem Inv.exec_senddata_accepted : exec (.senddata x) s = exec .txonce (dataWritten x s) :=
  exec_senddata_of_ok (setData_ok_of_exec_setdata hn hd (h.exec_setdata_accepted hn hd)).1

/-- The length of the packet with the new data field (R52). -/
theorem Inv.totalLen_dataWritten : totalLen (dataWritten x s) = 18 + s.nameLen + x.length :=
  (h.writeData x hn hd).totalLen_of_data rfl

end

/-- FB after an accepted SENDDATA whose frame fits: the data field, then what a transmission writes; the placeholder
begins where the data field ends. -/
theorem read_framedFb_dataWritten {s : State} {x : List Byte}
    (htotal : totalLen (dataWritten x s) = 18 + s.nameLen + x.length) (i : Nat) :
    Memory.read Buf.fb.blank (framedFb (dataWritten x s)) i =
      if i = 1 then some (BitVec.ofNat 8 (13 + s.nameLen + x.length))
      else if dataStart s ≤ i ∧ i < dataStart s + (2 + x.length) then
        (BitVec.ofNat 8 (x.length + 1) :: 0xFF :: x)[i - dataStart s]?
      else if dataStart s + (2 + x.length) ≤ i ∧ i < dataStart s + (2 + x.length) + 3 then some 0x55
      else s.byteAt .fb i := by
  have hcur : currentLength (dataWritten x s) = 13 + s.nameLen + x.length := by
    rw [totalLen] at htotal
    omega
  have hbegin : 2 + (13 + s.nameLen + x.length) = dataStart s + (2 + x.length) := by
    rw [dataStart]
    omega
  have hend : 18 + s.nameLen + x.length = dataStart s + (2 + x.length) + 3 := by omega
  have hold : (dataWritten x s).byteAt .fb i = Memory.read Buf.fb.blank (dataWritten x s).fb i := rfl
  rw [read_framedFb, hold, read_dataWritten, htotal, hcur, hbegin, hend]
  by_cases hdata : dataStart s ≤ i ∧ i < dataStart s + (2 + x.length)
  · have hcrc : ¬(dataStart s + (2 + x.length) ≤ i ∧ i < dataStart s + (2 + x.length) + 3) := by omega
    rw [if_neg hcrc, if_pos hdata, if_pos hdata]
  · rw [if_neg hdata, if_neg hdata]

/-- Settles O42: TXONCE from the state with the data field in place. -/
theorem senddataTransmits : Obligations.SenddataTransmits := by
  intro s x h hn hd hfit
  have htotal := h.totalLen_dataWritten hn hd
  have hlen := (codedFrame_length (dataWritten x s)).trans htotal
  refine ⟨framedFb (dataWritten x s), codedTx (dataWritten x s), nextIdx s.chidx, chNum s.chidx, chFreq s.chidx,
    codedFrame (dataWritten x s), ?_, nextIdx_val s.chidx, chPair_eq_getD s.chidx, ?_,
    read_framedFb_dataWritten htotal, ?_⟩
  · rw [h.exec_senddata_accepted hn hd, exec_txonce_fits (htotal.trans_le hfit), ← hlen]
    rfl
  · rw [← htotal, map_read_framedFb]
    exact encodePacket_framed (dataWritten x s)
  · rw [← htotal]
    exact read_codedTx (dataWritten x s)

/-- Settles O43: the transmission is refused from the state with the data field in place. -/
theorem senddataOverrunKeepsDataField : Obligations.SenddataOverrunKeepsDataField := by
  intro s x h hn hd hlong
  have hover : (dataWritten x s).cfg.cap < totalLen (dataWritten x s) :=
    hlong.trans_eq (h.totalLen_dataWritten hn hd).symm
  refine ⟨(dataWritten x s).fb, ?_, read_dataWritten x s⟩
  rw [h.exec_senddata_accepted hn hd, exec_txonce_overrun hover]
  rfl

/-! ### The radio calls of a step (R212, R245) -/

/-- Between `s` and `t` no radio call was made, or those of one transmission, which moved the hopper. -/
def TransmitsAtMostOnce (s t : State) : Prop :=
  t.radio = s.radio ∨ ∃ (freq : Byte) (q : List Byte),
    t.radio = s.radio ++ radioCalls s.cfg freq q ∧ t.chidx.val = (s.chidx.val + 1) % 3

theorem Effect.transmitsAtMostOnce {s t : State} {i : Instr} (h : Effect s i t) : TransmitsAtMostOnce s t := by
  cases h with
  | answered | declined | advanced | addressed | named | dataSet | dataNotSent => exact .inl rfl
  | sent => exact .inr ⟨_, _, rfl, nextIdx_val s.chidx⟩
  | dataSent => exact .inr ⟨_, _, rfl, nextIdx_val s.chidx⟩

/-- Settles O46: only an operation's effect makes radio calls. -/
theorem radioCallsComeInThrees : Obligations.RadioCallsComeInThrees := by
  intro s t h
  change TransmitsAtMostOnce s t
  rcases step_cases s with ⟨-, hs⟩ | ⟨_, -, hs⟩ | ⟨_, -, hs⟩ | ⟨_, more, i, rest, -, -, hs⟩ | ⟨_, _, _, -, -, hs⟩ |
    ⟨_, _, _, -, -, hs⟩ <;> rw [hs] at h
  case inr.inr.inr.inl =>
    exact (exec_effect i (s.withInputs (requeue rest more)) t h).transmitsAtMostOnce
  all_goals
    cases h
    exact .inl rfl

end Sys2Proof.Machine
end

section
/-! PROOFS. Exceptions (60_exceptions.md): what an operation that does not answer OK has changed (R233), and the idle
block (R247). -/

namespace Sys2Proof.Machine

/-- Only OK has the status byte zero (R74). -/
theorem Status.code_ne_zero {st : Status} (h : st ≠ .ok) : st.code ≠ 0x00 := by
  cases st with
  | ok => exact absurd rfl h
  | capacityExceeded | preconditionViolated | frameOverrun | badOperand | badOpcode => decide

/-- Settles O49: an effect answers OK, is a raise in the state the operation met, or is SENDDATA's raise in the state
with the data field in place. -/
theorem declinedOperationsChangeNothing : Obligations.DeclinedOperationsChangeNothing := by
  intro i s t h
  cases exec_effect i s t h with
  | answered | advanced | addressed | named | dataSet | sent | dataSent => exact .inl ⟨_, rfl⟩
  | declined _ st hst => exact .inr ⟨st.code, Status.code_ne_zero hst, .inl rfl⟩
  | dataNotSent x _ _ hover => exact .inr ⟨_, Status.code_ne_zero (by decide), .inr ⟨⟨x, rfl⟩, hover, rfl⟩⟩

/-- Settles O7: with no pending input there is nothing to fetch. -/
theorem idleStepKeepsState : Obligations.IdleStepKeepsState := by
  intro s hin
  have hfetch : fetch s = .idle s := by simp only [fetch, hin]
  rw [step, hfetch]

end Sys2Proof.Machine
end

section
/-! PROOFS. Reset and hazards (70_reset_and_hazards.md): `rst` as a step (R260), the data field that a new name drops
(R267), and the stale bytes of FB that no transmission sends (R268). -/

namespace Sys2Proof.Machine

/-! ### Reset (R260) -/

/-- Settles O13: the step resets the state whose pending inputs lack the assertion of `rst`. -/
theorem resetInputRestoresResetState : Obligations.ResetInputRestoresResetState := by
  intro s more hin
  have hfetch : fetch s = .rst (s.withInputs more) := by simp only [fetch, hin]
  rw [step, hfetch]
  rfl

/-! ### A new name drops the data field (R267) -/

theorem exec_curlen (s : State) : exec .curlen s = .next (s.respond .ok [lenByte (currentLength s)]) := rfl

/-- With the name in place and no data field, the PDU is address, flags and name structure (R183). -/
theorem currentLength_nameWritten (t : List Byte) (s : State) : currentLength (nameWritten t s) = 11 + t.length := by
  change 9 + (2 + t.length) + 0 = 11 + t.length
  omega

/-- Settles O37: an accepted SETNAME leaves `nameWritten`, and CURLEN answers its length. -/
theorem renamingErasesData : Obligations.RenamingErasesData := by
  intro s s1 t hc ht h
  have hcap := hc.1
  rw [exec_setname_accepted (by omega)] at h
  obtain rfl := Host.Outcome.next.inj h
  refine ⟨rfl, ?_⟩
  rw [exec_curlen, ← currentLength_nameWritten t s]
  rfl

/-! ### Stale bytes of FB (R268) -/

section
variable {s : State} {m : Memory}
  (hm : ∀ i, i < 2 + currentLength s → Memory.read Buf.fb.blank m i = s.byteAt .fb i)
include hm

/-- The plain packet reads FB below `2 + pktLen` only: the placeholder stands above. -/
theorem plainPacket_congr_fb : plainPacket { s with fb := m } = plainPacket s := by
  refine List.map_congr_left fun k _ => ?_
  change (if k = 1 then BitVec.ofNat 8 (currentLength s) else if 2 + currentLength s ≤ k then 0x55
    else (Memory.read Buf.fb.blank m k).getD 0) = _
  split_ifs with h1 hk
  · rfl
  · rfl
  · rw [hm k (by omega)]

theorem framedBody_congr_fb : framedBody { s with fb := m } = framedBody s := by
  rw [← plainPacket_take, plainPacket_congr_fb hm]
  exact plainPacket_take s

theorem codedFrame_congr_fb : codedFrame { s with fb := m } = codedFrame s := by
  rw [codedFrame, framedBody_congr_fb hm]
  rfl

theorem codedTx_congr_fb : codedTx { s with fb := m } = codedTx s := by
  rw [codedTx, codedFrame_congr_fb hm, framedBody_congr_fb hm]
  rfl

end

/-- Settles O53: both frames fit or neither does, as the lengths are the same; the packets sent are the same by
`codedFrame_congr_fb`. -/
theorem staleBytesAreNeverSent : Obligations.StaleBytesAreNeverSent := by
  intro s m hm t t' ht ht'
  rcases Nat.lt_or_ge s.cfg.cap (totalLen s) with hover | hfit
  · have hover' : ({ s with fb := m } : State).cfg.cap < totalLen { s with fb := m } := hover
    rw [exec_txonce_overrun hover] at ht
    rw [exec_txonce_overrun hover'] at ht'
    cases ht
    cases ht'
    exact ⟨rfl, rfl⟩
  · have hfit' : totalLen { s with fb := m } ≤ ({ s with fb := m } : State).cfg.cap := hfit
    rw [exec_txonce_fits hfit] at ht
    rw [exec_txonce_fits hfit'] at ht'
    cases ht
    cases ht'
    simp [codedFrame_congr_fb hm, codedTx_congr_fb hm]

end Sys2Proof.Machine
end
